-- ==== Sys2Proof/Word.lean ====
section
/-! DEFINITION. The word types of the CHIP-8 core (00_scope R9): every value is unsigned. -/

namespace Sys2Proof

/-- `u4`: a nibble of an instruction word. -/
abbrev Nibble := BitVec 4

/-- `u8`: a byte of memory, a general register, a timer. -/
abbrev Byte := BitVec 8

/-- `u12`: an address, the program counter, a stack entry. -/
abbrev Addr := BitVec 12

/-- `u16`: an instruction word, the index register. -/
abbrev Word := BitVec 16

/-- The number of a general register, 0x0 to 0xF (R15). -/
abbrev Reg := Fin 16

/-- The number of a key, 0x0 to 0xF (R29). -/
abbrev Key := Fin 16

/-- The size of the MemoryBank in bytes, `MEM_SIZE` (R5). -/
abbrev memSize : Nat := 4096

/-- The first address of a program, `ROM_BASE` (R5). -/
abbrev romBase : Nat := 0x200

/-- The most bytes a ROM may have, `ROM_MAX` (R5). -/
abbrev romMax : Nat := memSize - romBase

end Sys2Proof
end

