-- ==== Sys2Proof/Syntax.lean ====
section
/-! DEFINITION. The 34 instructions (30_encoding R57, R58), one constructor per row of the opcode table, in its order.
Each operand has exactly the values its field of the word admits (R56), so every term is well formed by its type. -/

namespace Sys2Proof

/-- The instruction set (R58). The constructor names follow the decoder of R57. -/
inductive Instr where
  /-- `00E0` (CLS), R77. -/
  | cls
  /-- `00EE` (RET), R81. -/
  | ret
  /-- `1NNN` (JP addr), R82. -/
  | jp (nnn : Addr)
  /-- `2NNN` (CALL addr), R83. -/
  | call (nnn : Addr)
  /-- `3XNN` (SE Vx, byte), R85. -/
  | seImm (x : Reg) (nn : Byte)
  /-- `4XNN` (SNE Vx, byte), R86. -/
  | sneImm (x : Reg) (nn : Byte)
  /-- `5XY0` (SE Vx, Vy), R87. -/
  | seReg (x y : Reg)
  /-- `6XNN` (LD Vx, byte), R91. -/
  | ldImm (x : Reg) (nn : Byte)
  /-- `7XNN` (ADD Vx, byte), R92. -/
  | addImm (x : Reg) (nn : Byte)
  /-- `8XY0` (LD Vx, Vy), R93. -/
  | ldReg (x y : Reg)
  /-- `8XY1` (OR Vx, Vy), R94. -/
  | orReg (x y : Reg)
  /-- `8XY2` (AND Vx, Vy), R95. -/
  | andReg (x y : Reg)
  /-- `8XY3` (XOR Vx, Vy), R96. -/
  | xorReg (x y : Reg)
  /-- `8XY4` (ADD Vx, Vy), R97. -/
  | addReg (x y : Reg)
  /-- `8XY5` (SUB Vx, Vy), R98. -/
  | sub (x y : Reg)
  /-- `8XY6` (SHR Vx, Vy), R99. -/
  | shr (x y : Reg)
  /-- `8XY7` (SUBN Vx, Vy), R100. -/
  | subn (x y : Reg)
  /-- `8XYE` (SHL Vx, Vy), R101. -/
  | shl (x y : Reg)
  /-- `9XY0` (SNE Vx, Vy), R88. -/
  | sneReg (x y : Reg)
  /-- `ANNN` (LD I, addr), R104. -/
  | ldI (nnn : Addr)
  /-- `BNNN` (JP V0, addr), R84. -/
  | jpV0 (nnn : Addr)
  /-- `CXNN` (RND Vx, byte), R102. -/
  | rnd (x : Reg) (nn : Byte)
  /-- `DXYN` (DRW Vx, Vy, nibble), R79. -/
  | drw (x y : Reg) (n : Nibble)
  /-- `EX9E` (SKP Vx), R111. -/
  | skp (x : Reg)
  /-- `EXA1` (SKNP Vx), R112. -/
  | sknp (x : Reg)
  /-- `FX07` (LD Vx, DT), R113. -/
  | ldXDt (x : Reg)
  /-- `FX0A` (LD Vx, K), R114. -/
  | ldXK (x : Reg)
  /-- `FX15` (LD DT, Vx), R117. -/
  | ldDtX (x : Reg)
  /-- `FX18` (LD ST, Vx), R118. -/
  | ldStX (x : Reg)
  /-- `FX1E` (ADD I, Vx), R105. -/
  | addIX (x : Reg)
  /-- `FX29` (LD F, Vx), R106. -/
  | ldFX (x : Reg)
  /-- `FX33` (LD B, Vx), R107. -/
  | ldBX (x : Reg)
  /-- `FX55` (LD [I], Vx), R108. -/
  | ldMemX (x : Reg)
  /-- `FX65` (LD Vx, [I]), R109. -/
  | ldXMem (x : Reg)
  deriving DecidableEq, Repr

end Sys2Proof
end

