-- ==== Sys2Proof/WellFormed.lean ====
section
/-! DEFINITION. The match and mask table of the instruction words (30_encoding R58) and the check that a word is some
instruction's. An `Instr` needs no check of its own: each operand's type is exactly its field (R56). What can be ill
formed is a WORD, and the check on it is written from R58, apart from the decoder, which is written from R57. -/

namespace Sys2Proof

/-- One row of R58: a word `w` is the instruction when `w & mask == match`. -/
structure OpcodeRow where
  bits : Word
  mask : Word
  deriving DecidableEq, Repr

/-- The word `w` is selected by the row (R58). -/
def OpcodeRow.selects (r : OpcodeRow) (w : Word) : Bool := w &&& r.mask == r.bits

/-- The row of R58 that stands for an instruction. -/
def Instr.row : Instr → OpcodeRow
  | .cls => ⟨0x00E0, 0xFFFF⟩
  | .ret => ⟨0x00EE, 0xFFFF⟩
  | .jp _ => ⟨0x1000, 0xF000⟩
  | .call _ => ⟨0x2000, 0xF000⟩
  | .seImm _ _ => ⟨0x3000, 0xF000⟩
  | .sneImm _ _ => ⟨0x4000, 0xF000⟩
  | .seReg _ _ => ⟨0x5000, 0xF00F⟩
  | .ldImm _ _ => ⟨0x6000, 0xF000⟩
  | .addImm _ _ => ⟨0x7000, 0xF000⟩
  | .ldReg _ _ => ⟨0x8000, 0xF00F⟩
  | .orReg _ _ => ⟨0x8001, 0xF00F⟩
  | .andReg _ _ => ⟨0x8002, 0xF00F⟩
  | .xorReg _ _ => ⟨0x8003, 0xF00F⟩
  | .addReg _ _ => ⟨0x8004, 0xF00F⟩
  | .sub _ _ => ⟨0x8005, 0xF00F⟩
  | .shr _ _ => ⟨0x8006, 0xF00F⟩
  | .subn _ _ => ⟨0x8007, 0xF00F⟩
  | .shl _ _ => ⟨0x800E, 0xF00F⟩
  | .sneReg _ _ => ⟨0x9000, 0xF00F⟩
  | .ldI _ => ⟨0xA000, 0xF000⟩
  | .jpV0 _ => ⟨0xB000, 0xF000⟩
  | .rnd _ _ => ⟨0xC000, 0xF000⟩
  | .drw _ _ _ => ⟨0xD000, 0xF000⟩
  | .skp _ => ⟨0xE09E, 0xF0FF⟩
  | .sknp _ => ⟨0xE0A1, 0xF0FF⟩
  | .ldXDt _ => ⟨0xF007, 0xF0FF⟩
  | .ldXK _ => ⟨0xF00A, 0xF0FF⟩
  | .ldDtX _ => ⟨0xF015, 0xF0FF⟩
  | .ldStX _ => ⟨0xF018, 0xF0FF⟩
  | .addIX _ => ⟨0xF01E, 0xF0FF⟩
  | .ldFX _ => ⟨0xF029, 0xF0FF⟩
  | .ldBX _ => ⟨0xF033, 0xF0FF⟩
  | .ldMemX _ => ⟨0xF055, 0xF0FF⟩
  | .ldXMem _ => ⟨0xF065, 0xF0FF⟩

/-- One instruction of each row, in the order of R58, with every operand 0. -/
def sampleInstrs : List Instr :=
  [.cls, .ret, .jp 0, .call 0, .seImm 0 0, .sneImm 0 0, .seReg 0 0, .ldImm 0 0, .addImm 0 0,
   .ldReg 0 0, .orReg 0 0, .andReg 0 0, .xorReg 0 0, .addReg 0 0, .sub 0 0, .shr 0 0, .subn 0 0, .shl 0 0,
   .sneReg 0 0, .ldI 0, .jpV0 0, .rnd 0 0, .drw 0 0 0, .skp 0, .sknp 0, .ldXDt 0, .ldXK 0, .ldDtX 0,
   .ldStX 0, .addIX 0, .ldFX 0, .ldBX 0, .ldMemX 0, .ldXMem 0]

/-- The 34 rows of R58. -/
def opcodeRows : List OpcodeRow := sampleInstrs.map Instr.row

/-- The word is an instruction's: some row of R58 selects it. Every other word is invalid (R59). -/
def wellFormedWord (w : Word) : Bool := opcodeRows.any (·.selects w)

end Sys2Proof
end

