-- ==== Sys2Proof/Decode.lean ====
section
/-! DEFINITION. The decoder (30_encoding R57), total on every word and on every list of bytes, and the encoder, from the
formats of R55. -/

namespace Sys2Proof

/-- `T`, bits 15-12, the major opcode (R54). -/
def fieldT (w : Word) : Nibble := w.extractLsb' 12 4

/-- `X`, bits 11-8, as a register number (R54). -/
def fieldX (w : Word) : Reg := (w.extractLsb' 8 4).toFin

/-- `Y`, bits 7-4, as a register number (R54). -/
def fieldY (w : Word) : Reg := (w.extractLsb' 4 4).toFin

/-- `N`, bits 3-0 (R54). -/
def fieldN (w : Word) : Nibble := w.extractLsb' 0 4

/-- `NN`, bits 7-0 (R54). -/
def fieldNN (w : Word) : Byte := w.extractLsb' 0 8

/-- `NNN`, bits 11-0 (R54). -/
def fieldNNN (w : Word) : Addr := w.extractLsb' 0 12

/-- The operations of major opcode 0x8, by `N` (R57). -/
def decodeArith (w : Word) : Option Instr :=
  match fieldN w with
  | 0x0#4 => some (.ldReg (fieldX w) (fieldY w))
  | 0x1#4 => some (.orReg (fieldX w) (fieldY w))
  | 0x2#4 => some (.andReg (fieldX w) (fieldY w))
  | 0x3#4 => some (.xorReg (fieldX w) (fieldY w))
  | 0x4#4 => some (.addReg (fieldX w) (fieldY w))
  | 0x5#4 => some (.sub (fieldX w) (fieldY w))
  | 0x6#4 => some (.shr (fieldX w) (fieldY w))
  | 0x7#4 => some (.subn (fieldX w) (fieldY w))
  | 0xE#4 => some (.shl (fieldX w) (fieldY w))
  | _ => none

/-- The operations of major opcode 0xF, by `NN` (R57). -/
def decodeMisc (w : Word) : Option Instr :=
  match fieldNN w with
  | 0x07#8 => some (.ldXDt (fieldX w))
  | 0x0A#8 => some (.ldXK (fieldX w))
  | 0x15#8 => some (.ldDtX (fieldX w))
  | 0x18#8 => some (.ldStX (fieldX w))
  | 0x1E#8 => some (.addIX (fieldX w))
  | 0x29#8 => some (.ldFX (fieldX w))
  | 0x33#8 => some (.ldBX (fieldX w))
  | 0x55#8 => some (.ldMemX (fieldX w))
  | 0x65#8 => some (.ldXMem (fieldX w))
  | _ => none

/-- The decoder of R57: an exhaustive match on `T`, then on the sub-fields. `none` is `INVALID(w)`. -/
def decodeWord (w : Word) : Option Instr :=
  match fieldT w with
  | 0x0#4 => if w = 0x00E0#16 then some .cls else if w = 0x00EE#16 then some .ret else none
  | 0x1#4 => some (.jp (fieldNNN w))
  | 0x2#4 => some (.call (fieldNNN w))
  | 0x3#4 => some (.seImm (fieldX w) (fieldNN w))
  | 0x4#4 => some (.sneImm (fieldX w) (fieldNN w))
  | 0x5#4 => if fieldN w = 0#4 then some (.seReg (fieldX w) (fieldY w)) else none
  | 0x6#4 => some (.ldImm (fieldX w) (fieldNN w))
  | 0x7#4 => some (.addImm (fieldX w) (fieldNN w))
  | 0x8#4 => decodeArith w
  | 0x9#4 => if fieldN w = 0#4 then some (.sneReg (fieldX w) (fieldY w)) else none
  | 0xA#4 => some (.ldI (fieldNNN w))
  | 0xB#4 => some (.jpV0 (fieldNNN w))
  | 0xC#4 => some (.rnd (fieldX w) (fieldNN w))
  | 0xD#4 => some (.drw (fieldX w) (fieldY w) (fieldN w))
  | 0xE#4 => if fieldNN w = 0x9E#8 then some (.skp (fieldX w)) else
      if fieldNN w = 0xA1#8 then some (.sknp (fieldX w)) else none
  | 0xF#4 => decodeMisc w
  | _ => none

/-- The outcome of decoding a list of bytes: an instruction, or a rejection by name, and the bytes left. -/
inductive Decoded where
  /-- The first two bytes are the instruction `i`. -/
  | instr (i : Instr) (rest : List Byte)
  /-- The first two bytes are the word `w`, which no row of R58 selects: `INVALID(w)` (R57, R59). -/
  | invalid (w : Word) (rest : List Byte)
  /-- Fewer than two bytes: no instruction word (R53). The core's own fetch always has two bytes (R39). -/
  | truncated (bytes : List Byte)
  deriving DecidableEq, Repr

/-- Two bytes as an instruction word, the first one high (R39, R40). -/
def wordOfBytes (hi lo : Byte) : Word := hi ++ lo

/-- Decoding a list of bytes: one big-endian word (R39, R53). -/
def decodeBytes : List Byte → Decoded
  | hi :: lo :: rest =>
    match decodeWord (wordOfBytes hi lo) with
    | some i => .instr i rest
    | none => .invalid (wordOfBytes hi lo) rest
  | bytes => .truncated bytes

/-- A register number as the nibble that names it (R54). -/
def regNibble (r : Reg) : Nibble := BitVec.ofFin r

/-- Format A (R55): `T` and a 12-bit address. -/
def formatA (t : Nibble) (nnn : Addr) : Word := t ++ nnn

/-- Formats XB and XS (R55): `T`, a register and a byte. -/
def formatXB (t : Nibble) (x : Reg) (nn : Byte) : Word := t ++ regNibble x ++ nn

/-- Formats XYS and XYN (R55): `T`, two registers and a nibble. -/
def formatXYN (t : Nibble) (x y : Reg) (n : Nibble) : Word := t ++ regNibble x ++ regNibble y ++ n

/-- The word of an instruction, from the formats of R55 and the rows of R58. -/
def encode : Instr → Word
  | .cls => 0x00E0
  | .ret => 0x00EE
  | .jp nnn => formatA 0x1 nnn
  | .call nnn => formatA 0x2 nnn
  | .seImm x nn => formatXB 0x3 x nn
  | .sneImm x nn => formatXB 0x4 x nn
  | .seReg x y => formatXYN 0x5 x y 0x0
  | .ldImm x nn => formatXB 0x6 x nn
  | .addImm x nn => formatXB 0x7 x nn
  | .ldReg x y => formatXYN 0x8 x y 0x0
  | .orReg x y => formatXYN 0x8 x y 0x1
  | .andReg x y => formatXYN 0x8 x y 0x2
  | .xorReg x y => formatXYN 0x8 x y 0x3
  | .addReg x y => formatXYN 0x8 x y 0x4
  | .sub x y => formatXYN 0x8 x y 0x5
  | .shr x y => formatXYN 0x8 x y 0x6
  | .subn x y => formatXYN 0x8 x y 0x7
  | .shl x y => formatXYN 0x8 x y 0xE
  | .sneReg x y => formatXYN 0x9 x y 0x0
  | .ldI nnn => formatA 0xA nnn
  | .jpV0 nnn => formatA 0xB nnn
  | .rnd x nn => formatXB 0xC x nn
  | .drw x y n => formatXYN 0xD x y n
  | .skp x => formatXB 0xE x 0x9E
  | .sknp x => formatXB 0xE x 0xA1
  | .ldXDt x => formatXB 0xF x 0x07
  | .ldXK x => formatXB 0xF x 0x0A
  | .ldDtX x => formatXB 0xF x 0x15
  | .ldStX x => formatXB 0xF x 0x18
  | .addIX x => formatXB 0xF x 0x1E
  | .ldFX x => formatXB 0xF x 0x29
  | .ldBX x => formatXB 0xF x 0x33
  | .ldMemX x => formatXB 0xF x 0x55
  | .ldXMem x => formatXB 0xF x 0x65

/-- The high byte of a word, the one stored at the lower address (R40). -/
def highByte (w : Word) : Byte := w.extractLsb' 8 8

/-- The low byte of a word, the one stored at the higher address (R40). -/
def lowByte (w : Word) : Byte := w.extractLsb' 0 8

/-- A word as the hardware stores it, high byte first (R39, R40). -/
def bytesOfWord (w : Word) : List Byte := [highByte w, lowByte w]

/-- The first `nbits` bits of `w`, the bits above them zero, as the one word an instruction has (R53). -/
def tableWord (nbits w : Nat) : Word := BitVec.ofNat 16 (w % 2 ^ nbits)

/-- The instruction the decoder reads from the bits `w` of an opcode-table row of `nbits` bits. -/
def decodeTableWord (nbits w : Nat) : Option Instr :=
  match decodeBytes (bytesOfWord (tableWord nbits w)) with
  | .instr i _ => some i
  | .invalid _ _ => none
  | .truncated _ => none

end Sys2Proof
end

