-- ==== Sys2Proof/Config.lean ====
section
/-! DEFINITION. What an implementation fixes at construction (00_scope R6), and the one free value, `RAND`. -/

namespace Sys2Proof

/-- The configuration fixed at construction (R6). No instruction and no `reset` changes it. `State` carries it as a
read-only field, so a statement about every state is a statement about every configuration (assumption log 2). The other
parameters of R6: `RAND` is `Config.randByte` below; `SNAPSHOT_FORMAT` is the argument `SnapshotFormat` of the host's
transactions (assumption log 11); the host's rates are outside the core (assumption log 18). -/
structure Config where
  /-- `SHIFT_USES_VY`: `8XY6` and `8XYE` shift `V[Y]` into `V[X]` (R6, R99, R101). -/
  shiftUsesVy : Bool
  /-- `DRAW_WRAPS`: `DXYN` pixels past an edge wrap, otherwise they are clipped (R6, R79). -/
  drawWraps : Bool
  /-- `LS_INCREMENTS_I`: `FX55` and `FX65` advance `I` (R6, R108, R109). -/
  lsIncrementsI : Bool
  /-- `INVALID_OPCODE_FATAL`: an invalid word halts, otherwise it is a no-op (R6, R72). -/
  invalidOpcodeFatal : Bool
  /-- `FONT_BASE`: the address of glyph 0, in 0x000 to 0x1B0 (R6). -/
  fontBase : Fin 0x1B1
  /-- `FONT_DATA`: the 80 glyph bytes (R45). -/
  fontData : Vector Byte 80
  deriving DecidableEq, Repr

/-- The `RAND` oracle (R6, R102): the byte of the n-th draw, under no law. A FREE VALUE: it has no body, so nothing can
be proved of it but that it is a byte (assumption log 3). -/
opaque Config.randByte : Nat → Byte

end Sys2Proof
end

