-- ==== Sys2Proof/Machine/State.lean ====
section
/-! DEFINITION. The state of the core (10_state R34), the faults it halts with (R32), what a step returns (R71), and the
state after construction and reset (R135, R136). Plain data throughout. -/

namespace Sys2Proof.Machine

open Sys2Proof

/-- The faults of a step (R32, R119). Each is TAKEN: the step answers a next state in mode `Halted(f)` (R120), which
later steps report again (R69). No step answers the interface's own `Outcome.fault`: that is exact, not a gap, since the
spec gives every fault's effect (assumption log 6, safe). -/
inductive Fault where
  /-- Raised by `2NNN` with 16 stack entries in use (R83). Taken as mode `Halted`; safe. -/
  | stackOverflow
  /-- Raised by `00EE` with no stack entry in use (R81). Taken as mode `Halted`; safe. -/
  | stackUnderflow
  /-- Raised by the fetch of the word `w` that no instruction matches, when `INVALID_OPCODE_FATAL` is set (R72). Taken as
  mode `Halted`; safe. -/
  | invalidOpcode (w : Word)
  deriving DecidableEq, Repr

/-- The reasons the model refuses. -/
inductive Refusal where
  /-- Raised by `exec` alone, for an instruction without a meaning. No arm raises it in this model; safe. -/
  | notModelled (mnemonic : String)
  /-- Raised by the `set_key` transaction for a key index above 15, which is outside the interface (R73, D33); safe. -/
  | keyIndexOutsideInterface (k : Nat)
  /-- Raised by the `restore` transaction for a blob that the `SNAPSHOT_FORMAT` does not read, or whose memory is none that
  `snapshot` of a core with this configuration makes (R76; assumption log 11); safe. -/
  | blobNotFromSnapshot
  deriving DecidableEq, Repr

/-- The interpreter mode (R31). -/
inductive Mode where
  /-- A step fetches and executes one instruction. -/
  | running
  /-- A step polls for a key press, whose index `V[x]` receives (R115). -/
  | waitingForKey (x : Reg)
  /-- A step returns the stored fault (R69). -/
  | halted (f : Fault)
  deriving DecidableEq, Repr

/-- The event of a step that returns `Ok` (R10, R71). -/
inductive StepEvent where
  | idle
  | executed
  | redraw
  deriving DecidableEq, Repr

/-- What a `step()` transaction returns (R71). -/
inductive StepResult where
  | ok (e : StepEvent)
  | err (f : Fault)
  deriving DecidableEq, Repr

/-- The frame buffer: 32 rows of 64 pixels, row 0 at the top and column 0 at the left (R28). -/
abbrev FrameBuffer := Vector (Vector Bool 64) 32

/-- The state of the core. All but `cfg`, `draws` and `result` are the items of R34. -/
structure State where
  /-- The configuration (R6): no step changes it. -/
  cfg : Config
  /-- The MemoryBank `M` (R35), the bytes that differ from their reset content, by rising address. -/
  mem : List Host.Cell
  /-- The general registers `V[0]` to `V[15]` (R15); `V[15]` is VF (R16). -/
  v : Vector Byte 16
  /-- The index register `I` (R19). -/
  i : Word
  /-- The program counter (R20): 12 bits, so every write is modulo 4096 (R21). -/
  pc : Addr
  /-- The call-stack entries (R24). -/
  stack : Vector Addr 16
  /-- The stack pointer `SP`, the number of entries in use (R24). -/
  sp : Fin 17
  /-- The delay timer `DT` (R27). -/
  dt : Byte
  /-- The sound timer `ST` (R27). -/
  st : Byte
  /-- The frame buffer, `fb[y][x]` (R28). -/
  fb : FrameBuffer
  /-- The key levels (R29), written by the host alone. -/
  keys : Vector Bool 16
  /-- The press latch `KEY_EDGE` (R30). -/
  keyEdge : Vector Bool 16
  /-- The interpreter mode (R31). -/
  mode : Mode
  /-- The model's own: how many bytes `RAND` has given, the index of the next free byte (assumption log 3). -/
  draws : Nat
  /-- The model's own: what the last `step()` returned (R71; assumption log 4). -/
  result : StepResult
  deriving DecidableEq, Repr

/-- `construct(config)` (R135): every item at its construction value. -/
def State.construct (cfg : Config) : State where
  cfg := cfg
  mem := []
  v := Vector.replicate 16 0x00
  i := 0x0000
  pc := 0x200
  stack := Vector.replicate 16 0x000
  sp := 0
  dt := 0x00
  st := 0x00
  fb := Vector.replicate 32 (Vector.replicate 64 false)
  keys := Vector.replicate 16 false
  keyEdge := Vector.replicate 16 false
  mode := .running
  draws := 0
  result := .ok .idle

/-- The machine right after reset, with the default configuration (R6, R135, R136, R137). -/
def State.reset : State := State.construct Config.default

end Sys2Proof.Machine
end

