-- ==== Sys2Proof/Machine/Ops.lean ====
section
/-! DEFINITION. The named operations on memory, registers, the program counter, the call stack and the mode; raising a
fault; and the fetch. There is no return from a fault (60_exceptions R124): only the host's `reset` and `restore`, in
Machine/Transactions.lean, leave `Halted`. -/

namespace Sys2Proof.Machine

open Sys2Proof

/-! ### The MemoryBank -/

/-- What an address reads as that nothing has written since construction: its byte of the font, or 0x00 (R46). -/
def resetByte (cfg : Config) (a : Nat) : Byte :=
  if h : cfg.fontBase.val ≤ a ∧ a < cfg.fontBase.val + 80 then cfg.fontData[a - cfg.fontBase.val] else 0x00

/-- The byte listed for an address, if one is. -/
def Memory.lookup : List Host.Cell → Nat → Option Byte
  | [], _ => none
  | (b, v) :: m, a => if b = a then some v else Memory.lookup m a

/-- Lists the byte `v` for the address `a`, in its place. -/
def Memory.insert (a : Nat) (v : Byte) : List Host.Cell → List Host.Cell
  | [] => [(a, v)]
  | (b, w) :: m => if a < b then (a, v) :: (b, w) :: m else if a = b then (a, v) :: m else (b, w) :: Memory.insert a v m

/-- Removes what is listed for the address `a`. -/
def Memory.erase (a : Nat) (m : List Host.Cell) : List Host.Cell := m.filter (fun c => c.1 != a)

/-- The byte at an address below 4096. -/
def Memory.read (cfg : Config) (m : List Host.Cell) (a : Nat) : Byte := (Memory.lookup m a).getD (resetByte cfg a)

/-- Memory with the byte `v` at an address below 4096, in canonical form again. -/
def Memory.write (cfg : Config) (m : List Host.Cell) (a : Nat) (v : Byte) : List Host.Cell :=
  if v = resetByte cfg a then Memory.erase a m else Memory.insert a v m

/-- The canonical form from the address `lo` on: addresses rise strictly from `lo`, stay below 4096, and no entry equals
what its address reads as unlisted. -/
def Memory.wfFrom (cfg : Config) (lo : Nat) : List Host.Cell → Bool
  | [] => true
  | (a, v) :: m => decide (lo ≤ a) && decide (a < memSize) && decide (v ≠ resetByte cfg a) && Memory.wfFrom cfg (a + 1) m

/-- Memory is in its one canonical form. -/
def Memory.wf (cfg : Config) (m : List Host.Cell) : Bool := Memory.wfFrom cfg 0 m

/-- `MemRead(a, 1)`: the byte at `a mod 4096` (R36, R37). -/
def State.readByte (s : State) (a : Nat) : Byte := Memory.read s.cfg s.mem (a % memSize)

/-- `MemWrite(a, 1, v)`: the byte `v` at `a mod 4096` (R36, R38). -/
def State.writeByte (s : State) (a : Nat) (v : Byte) : State :=
  { s with mem := Memory.write s.cfg s.mem (a % memSize) v }

/-- The bytes at `a`, `a + 1`, ..., stored in that order (R107, R108, R138). -/
def State.storeBytes (s : State) (a : Nat) : List Byte → State
  | [] => s
  | b :: bs => (s.writeByte a b).storeBytes (a + 1) bs

/-- The `n` bytes from `a` on (R42). -/
def State.readBytes (s : State) (a n : Nat) : List Byte := (List.range n).map fun k => s.readByte (a + k)

/-! ### Registers -/

/-- `V[x]` (R15). -/
def State.getReg (s : State) (x : Reg) : Byte := s.v[x]

/-- `V[x] <- b` (R15). -/
def State.setReg (s : State) (x : Reg) (b : Byte) : State := { s with v := s.v.set x b }

/-- Registers `k`, `k + 1`, ... receive the bytes in order (R109). -/
def State.setRegsFrom (s : State) (k : Nat) : List Byte → State
  | [] => s
  | b :: bs => (s.setReg (Fin.ofNat 16 k) b).setRegsFrom (k + 1) bs

/-- `I <- a` (R19). -/
def State.setI (s : State) (a : Word) : State := { s with i := a }

/-- `DT <- b` (R27). -/
def State.setDt (s : State) (b : Byte) : State := { s with dt := b }

/-- `ST <- b` (R27). -/
def State.setSt (s : State) (b : Byte) : State := { s with st := b }

/-- `fb <- fb'` (R28). -/
def State.setFb (s : State) (fb : FrameBuffer) : State := { s with fb := fb }

/-- `mode <- m` (R31). -/
def State.setMode (s : State) (m : Mode) : State := { s with mode := m }

/-- `KEY_EDGE <- 0`, all 16 latches (R30). -/
def State.clearLatch (s : State) : State := { s with keyEdge := Vector.replicate 16 false }

/-- One fresh byte of `RAND` is used up (R6, R102). -/
def State.countDraw (s : State) : State := { s with draws := s.draws + 1 }

/-! ### The program counter -/

/-- `pc <- t` (R21). -/
def State.setPc (s : State) (t : Addr) : State := { s with pc := t }

/-- `pc <- pc + 2`, mod 4096: the advance of the fetch (R66) and the extra advance of a skip (R70). -/
def State.advancePc (s : State) : State := s.setPc (s.pc + 2)

/-- "Skip next instruction" when the condition holds (R70). -/
def State.skipIf (s : State) (c : Bool) : State := if c then s.advancePc else s

/-! ### The call stack -/

/-- Push (R25): `none` is the overflow. -/
def State.push (s : State) (ret : Addr) : Option State :=
  if h : s.sp.val < 16 then
    some { s with stack := s.stack.set s.sp.val ret h, sp := ⟨s.sp.val + 1, by omega⟩ }
  else none

/-- Pop (R26): the released entry and the state without it; `none` is the underflow. -/
def State.pop (s : State) : Option (Addr × State) :=
  if h : 0 < s.sp.val then
    some (s.stack[s.sp.val - 1], { s with sp := ⟨s.sp.val - 1, by omega⟩ })
  else none

/-! ### Ending a step -/

/-- What a step of the machine answers. -/
abbrev Answer := Host.Outcome State Fault Refusal

/-- The state with the step's result recorded (R71). -/
def State.returning (s : State) (r : StepResult) : State := { s with result := r }

/-- `emit e`: the step returns `Ok(e)` (R10). -/
def emit (e : StepEvent) (s : State) : Answer := .next (s.returning (.ok e))

/-- `raise Fault(f)`: `mode <- Halted(f)` and the step returns `Err(f)` (R120). The fault is TAKEN: a next state. -/
def raiseFault (f : Fault) (s : State) : Answer := .next ((s.setMode (.halted f)).returning (.err f))

/-! ### Fetch -/

/-- The word at `pc`, big-endian, the second byte at `(pc + 1) mod 4096` (R39). -/
def State.fetchWord (s : State) : Word := wordOfBytes (s.readByte s.pc.toNat) (s.readByte (s.pc.toNat + 1))

/-- Execution of `INVALID(w)`, after the fetch advance (R72). -/
def execInvalid (w : Word) (s : State) : Answer :=
  if s.cfg.invalidOpcodeFatal then raiseFault (.invalidOpcode w) s else emit .executed s

/-- The state with a word stored where the next fetch reads it, and in the mode in which a step fetches. -/
def State.placeWord (s : State) (w : Word) : State :=
  (s.storeBytes s.pc.toNat (bytesOfWord w)).setMode .running

end Sys2Proof.Machine
end

