-- ==== Sys2Proof/Machine/Flags.lean ====
section
/-! DEFINITION. The flags written to VF (43_alu R89, R90) and the order of the two writes (10_state R17). -/

namespace Sys2Proof.Machine

open Sys2Proof

/-- A flag as the byte VF holds. -/
def flagByte (f : Bool) : Byte := if f then 0x01 else 0x00

/-- The carry of an addition: the mathematical sum exceeds 255 (R89, R97). -/
def carryOut (p q : Byte) : Bool := decide (255 < p.toNat + q.toNat)

/-- The no-borrow flag of `p - q`: `p >= q` (R89, R98, R100). -/
def noBorrow (p q : Byte) : Bool := decide (q.toNat ≤ p.toNat)

/-- The bit a right shift moves out: bit 0 (R99). -/
def bitOutRight (b : Byte) : Bool := b.getLsbD 0

/-- The bit a left shift moves out: bit 7 (R101). -/
def bitOutLeft (b : Byte) : Bool := b.getLsbD 7

/-- `V[F] <- f` (R16). -/
def State.setFlag (s : State) (f : Bool) : State := s.setReg 0xF (flagByte f)

/-- A result and a flag: `V[x]` first, then VF, so the flag wins when `x` is F (R17). -/
def State.setRegAndFlag (s : State) (x : Reg) (b : Byte) (f : Bool) : State := (s.setReg x b).setFlag f

end Sys2Proof.Machine
end

