-- ==== Sys2Proof/Machine/Operands.lean ====
section
/-! DEFINITION. The operand forms: key and digit numbers, the shift source, the effective address, and the lists of bytes
the memory transfers move. -/

namespace Sys2Proof.Machine

open Sys2Proof

/-- The low nibble of a byte, `b & 0xF`, as a number 0 to 15 (R106, R110). -/
def lowNibble (b : Byte) : Fin 16 := ⟨b.toNat % 16, Nat.mod_lt _ (by decide)⟩

/-- The key that `EX9E` and `EXA1` name: the low nibble of `V[x]` (R110). -/
def State.keyOperand (s : State) (x : Reg) : Key := lowNibble (s.getReg x)

/-- The level of a key (R29). -/
def State.keyDown (s : State) (k : Key) : Bool := s.keys[k]

/-- The address of the glyph of digit `d`, `FONT_BASE + 5 * d` (R45, R106). -/
def glyphAddress (cfg : Config) (d : Fin 16) : Word := BitVec.ofNat 16 (cfg.fontBase.val + 5 * d.val)

/-- The source of a shift: `V[y]` when `SHIFT_USES_VY`, otherwise `V[x]` (R99, R101). -/
def State.shiftSource (s : State) (x y : Reg) : Byte := if s.cfg.shiftUsesVy then s.getReg y else s.getReg x

/-- The effective address `I + k` (R103); the access reduces it modulo 4096 (R36). -/
def State.dataAddress (s : State) (k : Nat) : Nat := s.i.toNat + k

/-- `V[0]` to `V[x]`, the bytes `FX55` stores (R108). -/
def State.regsUpTo (s : State) (x : Reg) : List Byte := (List.range (x.val + 1)).map fun k => s.getReg (Fin.ofNat 16 k)

/-- The bytes `FX33` stores: hundreds, tens and ones of a byte (R107). -/
def decimalDigits (b : Byte) : List Byte :=
  [BitVec.ofNat 8 (b.toNat / 100), BitVec.ofNat 8 (b.toNat / 10 % 10), BitVec.ofNat 8 (b.toNat % 10)]

/-- The advance of `I` after `FX55` and `FX65`: by `x + 1`, mod 65536, when `LS_INCREMENTS_I` (R108, R109). -/
def State.advanceI (s : State) (x : Reg) : State :=
  if s.cfg.lsIncrementsI then s.setI (s.i + BitVec.ofNat 16 (x.val + 1)) else s

end Sys2Proof.Machine
end

