-- ==== Sys2Proof/Machine/Alu.lean ====
section
/-! DEFINITION. Register loads, arithmetic, logic, shifts and random (43_alu). A byte sum or difference wraps modulo 256
(R89); only `8XY4` to `8XY7` and `8XYE` write VF as a flag (R90). -/

namespace Sys2Proof.Machine

open Sys2Proof

/-- `6XNN` (LD Vx, byte), R91. -/
def execLdImm (x : Reg) (nn : Byte) (s : State) : Answer := emit .executed (s.setReg x nn)

/-- `7XNN` (ADD Vx, byte), R92: no flag. -/
def execAddImm (x : Reg) (nn : Byte) (s : State) : Answer := emit .executed (s.setReg x (s.getReg x + nn))

/-- `8XY0` (LD Vx, Vy), R93. -/
def execLdReg (x y : Reg) (s : State) : Answer := emit .executed (s.setReg x (s.getReg y))

/-- `8XY1` (OR Vx, Vy), R94. -/
def execOrReg (x y : Reg) (s : State) : Answer := emit .executed (s.setReg x (s.getReg x ||| s.getReg y))

/-- `8XY2` (AND Vx, Vy), R95. -/
def execAndReg (x y : Reg) (s : State) : Answer := emit .executed (s.setReg x (s.getReg x &&& s.getReg y))

/-- `8XY3` (XOR Vx, Vy), R96. -/
def execXorReg (x y : Reg) (s : State) : Answer := emit .executed (s.setReg x (s.getReg x ^^^ s.getReg y))

/-- `8XY4` (ADD Vx, Vy), R97: VF is the carry. -/
def execAddReg (x y : Reg) (s : State) : Answer :=
  emit .executed (s.setRegAndFlag x (s.getReg x + s.getReg y) (carryOut (s.getReg x) (s.getReg y)))

/-- `8XY5` (SUB Vx, Vy), R98: VF is no borrow. -/
def execSub (x y : Reg) (s : State) : Answer :=
  emit .executed (s.setRegAndFlag x (s.getReg x - s.getReg y) (noBorrow (s.getReg x) (s.getReg y)))

/-- `8XY6` (SHR Vx, Vy), R99: VF is the bit shifted out. -/
def execShr (x y : Reg) (s : State) : Answer :=
  emit .executed (s.setRegAndFlag x (s.shiftSource x y >>> 1) (bitOutRight (s.shiftSource x y)))

/-- `8XY7` (SUBN Vx, Vy), R100: VF is no borrow of `V[Y] - V[X]`. -/
def execSubn (x y : Reg) (s : State) : Answer :=
  emit .executed (s.setRegAndFlag x (s.getReg y - s.getReg x) (noBorrow (s.getReg y) (s.getReg x)))

/-- `8XYE` (SHL Vx, Vy), R101: VF is the bit shifted out. -/
def execShl (x y : Reg) (s : State) : Answer :=
  emit .executed (s.setRegAndFlag x (s.shiftSource x y <<< 1) (bitOutLeft (s.shiftSource x y)))

/-- `CXNN` (RND Vx, byte), R102: one fresh byte of `RAND`, masked. -/
def execRnd (x : Reg) (nn : Byte) (s : State) : Answer :=
  emit .executed ((s.setReg x (Config.randByte s.draws &&& nn)).countDraw)

end Sys2Proof.Machine
end

