-- ==== Sys2Proof/Machine/Control.lean ====
section
/-! DEFINITION. Control transfer (42_control_flow): return, jump, call and the conditional skips. Each meaning runs after
the fetch has advanced `pc`. -/

namespace Sys2Proof.Machine

open Sys2Proof

/-- `00EE` (RET), R81. -/
def execRet (s : State) : Answer :=
  match s.pop with
  | some (ret, s') => emit .executed (s'.setPc ret)
  | none => raiseFault .stackUnderflow s

/-- `1NNN` (JP), R82. -/
def execJp (nnn : Addr) (s : State) : Answer := emit .executed (s.setPc nnn)

/-- `2NNN` (CALL), R83: the pushed `pc` is already past this instruction. -/
def execCall (nnn : Addr) (s : State) : Answer :=
  match s.push s.pc with
  | some s' => emit .executed (s'.setPc nnn)
  | none => raiseFault .stackOverflow s

/-- `BNNN` (JP V0), R84: the sum is stored modulo 4096. -/
def execJpV0 (nnn : Addr) (s : State) : Answer := emit .executed (s.setPc (nnn + (s.getReg 0).setWidth 12))

/-- `3XNN` (SE Vx, byte), R85. -/
def execSeImm (x : Reg) (nn : Byte) (s : State) : Answer := emit .executed (s.skipIf (s.getReg x == nn))

/-- `4XNN` (SNE Vx, byte), R86. -/
def execSneImm (x : Reg) (nn : Byte) (s : State) : Answer := emit .executed (s.skipIf (s.getReg x != nn))

/-- `5XY0` (SE Vx, Vy), R87. -/
def execSeReg (x y : Reg) (s : State) : Answer := emit .executed (s.skipIf (s.getReg x == s.getReg y))

/-- `9XY0` (SNE Vx, Vy), R88. -/
def execSneReg (x y : Reg) (s : State) : Answer := emit .executed (s.skipIf (s.getReg x != s.getReg y))

end Sys2Proof.Machine
end

