-- ==== Sys2Proof/Machine/Display.lean ====
section
/-! DEFINITION. The display family (41_display): `00E0`, `DXYN`, and the frame-buffer write engine. -/

namespace Sys2Proof.Machine

open Sys2Proof

/-- The frame buffer with every pixel unset (R77). -/
def blankScreen : FrameBuffer := Vector.replicate 32 (Vector.replicate 64 false)

/-- `fb[y][x]` (R28). -/
def pixelAt (fb : FrameBuffer) (y : Fin 32) (x : Fin 64) : Bool := fb[y][x]

/-- The frame buffer with one pixel flipped (R78). -/
def flipPixel (fb : FrameBuffer) (y : Fin 32) (x : Fin 64) : FrameBuffer := fb.set y (fb[y].set x (!fb[y][x]))

/-- Column `c` of a sprite byte: bit 7 is the leftmost pixel (R78). -/
def spriteBit (row : Byte) (c : Nat) : Bool := row.getLsbD (7 - c)

/-- Where the pixel at row `py`, column `px` lands: wrapped when `DRAW_WRAPS`, otherwise clipped past an edge (R79). -/
def landing (wraps : Bool) (py px : Nat) : Option (Fin 32 × Fin 64) :=
  if wraps then some (⟨py % 32, Nat.mod_lt _ (by decide)⟩, ⟨px % 64, Nat.mod_lt _ (by decide)⟩)
  else if h : py < 32 ∧ px < 64 then some (⟨py, h.1⟩, ⟨px, h.2⟩) else none

/-- One set sprite pixel: flip where it lands, and record a hit where the pixel was set before (R78, R79). -/
def plotPixel (wraps : Bool) (py px : Nat) (acc : FrameBuffer × Bool) : FrameBuffer × Bool :=
  match landing wraps py px with
  | some (y, x) => (flipPixel acc.1 y x, acc.2 || pixelAt acc.1 y x)
  | none => acc

/-- One sprite byte, columns 0 to 7, at row `py` from column `x0` on (R79). -/
def drawRow (wraps : Bool) (py x0 : Nat) (row : Byte) (acc : FrameBuffer × Bool) : FrameBuffer × Bool :=
  (List.range 8).foldl (fun acc c => if spriteBit row c then plotPixel wraps py (x0 + c) acc else acc) acc

/-- The first `n` rows of the sprite whose byte `r` is `rows r`, from row `y0` on (R79). -/
def drawRows (wraps : Bool) (y0 x0 : Nat) (rows : Nat → Byte) (n : Nat) (acc : FrameBuffer × Bool) : FrameBuffer × Bool :=
  (List.range n).foldl (fun acc r => drawRow wraps (y0 + r) x0 (rows r) acc) acc

/-- The column a draw starts at, always wrapped (R79). -/
def State.startColumn (s : State) (x : Reg) : Nat := (s.getReg x).toNat % 64

/-- The row a draw starts at, always wrapped (R79). -/
def State.startRow (s : State) (y : Reg) : Nat := (s.getReg y).toNat % 32

/-- The frame buffer after a draw of `n` rows from `I`, and whether a pixel collided (R79). -/
def State.drawSprite (s : State) (x y : Reg) (n : Nibble) : FrameBuffer × Bool :=
  drawRows s.cfg.drawWraps (s.startRow y) (s.startColumn x) (fun r => s.readByte (s.dataAddress r)) n.toNat (s.fb, false)

/-- `00E0` (CLS), R77. -/
def execCls (s : State) : Answer := emit .redraw (s.setFb blankScreen)

/-- `DXYN` (DRW), R79: VF is written after all pixels. -/
def execDrw (x y : Reg) (n : Nibble) (s : State) : Answer :=
  emit .redraw ((s.setFb (s.drawSprite x y n).1).setFlag (s.drawSprite x y n).2)

end Sys2Proof.Machine
end

