-- ==== Sys2Proof/Machine/IndexMemory.lean ====
section
/-! DEFINITION. The index register and the memory transfers (44_index_memory). -/

namespace Sys2Proof.Machine

open Sys2Proof

/-- `ANNN` (LD I, addr), R104: the high 4 bits of `I` become 0. -/
def execLdI (nnn : Addr) (s : State) : Answer := emit .executed (s.setI (nnn.setWidth 16))

/-- `FX1E` (ADD I, Vx), R105: modulo 65536, no flag. -/
def execAddIX (x : Reg) (s : State) : Answer := emit .executed (s.setI (s.i + (s.getReg x).setWidth 16))

/-- `FX29` (LD F, Vx), R106: the low nibble of `V[X]` selects the glyph. -/
def execLdFX (x : Reg) (s : State) : Answer := emit .executed (s.setI (glyphAddress s.cfg (lowNibble (s.getReg x))))

/-- `FX33` (LD B, Vx), R107: hundreds, tens and ones at `I`, `I+1`, `I+2`. -/
def execLdBX (x : Reg) (s : State) : Answer :=
  emit .executed (s.storeBytes (s.dataAddress 0) (decimalDigits (s.getReg x)))

/-- `FX55` (LD [I], Vx), R108: `V[0]` to `V[X]` stored from `I` on, then `I` may advance. -/
def execLdMemX (x : Reg) (s : State) : Answer :=
  emit .executed ((s.storeBytes (s.dataAddress 0) (s.regsUpTo x)).advanceI x)

/-- `FX65` (LD Vx, [I]), R109: `V[0]` to `V[X]` loaded from `I` on, then `I` may advance. -/
def execLdXMem (x : Reg) (s : State) : Answer :=
  emit .executed ((s.setRegsFrom 0 (s.readBytes (s.dataAddress 0) (x.val + 1))).advanceI x)

end Sys2Proof.Machine
end

