-- ==== Sys2Proof/Machine/KeysTimers.lean ====
section
/-! DEFINITION. The keypad and timer instructions (45_keys_timers), and the poll of a key wait (R115). -/

namespace Sys2Proof.Machine

open Sys2Proof

/-- `EX9E` (SKP Vx), R111: the level of the key, not the latch. -/
def execSkp (x : Reg) (s : State) : Answer := emit .executed (s.skipIf (s.keyDown (s.keyOperand x)))

/-- `EXA1` (SKNP Vx), R112. -/
def execSknp (x : Reg) (s : State) : Answer := emit .executed (s.skipIf (!s.keyDown (s.keyOperand x)))

/-- `FX07` (LD Vx, DT), R113. -/
def execLdXDt (x : Reg) (s : State) : Answer := emit .executed (s.setReg x s.dt)

/-- `FX0A` (LD Vx, K), R114: only presses after this step qualify. -/
def execLdXK (x : Reg) (s : State) : Answer := emit .executed (s.clearLatch.setMode (.waitingForKey x))

/-- `FX15` (LD DT, Vx), R117. -/
def execLdDtX (x : Reg) (s : State) : Answer := emit .executed (s.setDt (s.getReg x))

/-- `FX18` (LD ST, Vx), R118. -/
def execLdStX (x : Reg) (s : State) : Answer := emit .executed (s.setSt (s.getReg x))

/-- The lowest latched key, if one is latched (R115). -/
def State.firstLatched (s : State) : Option Key := (List.finRange 16).find? fun k => s.keyEdge[k]

/-- `keywait_poll(x)`, the step in `WaitingForKey(x)` (R115): no instruction is fetched. -/
def keywaitPoll (x : Reg) (s : State) : Answer :=
  match s.firstLatched with
  | none => emit .idle s
  | some k => emit .executed (((s.setReg x (BitVec.ofNat 8 k.val)).clearLatch).setMode .running)

end Sys2Proof.Machine
end

