-- ==== Sys2Proof/Machine/Cycle.lean ====
section
/-! DEFINITION. What a step does in each mode (40_interpreter R66, R67, R69). -/

namespace Sys2Proof.Machine

open Sys2Proof

/-- A step in `Halted(f)` (R69): the stored fault again, nothing else. -/
def haltedStep (f : Fault) (s : State) : Answer := .next (s.returning (.err f))

/-- A step in `Running` (R66): fetch, advance `pc` by 2, decode, execute exactly one instruction. -/
def runningStep (s : State) : Answer :=
  match decodeWord s.fetchWord with
  | some ins => exec ins s.advancePc
  | none => execInvalid s.fetchWord s.advancePc

end Sys2Proof.Machine
end

