-- ==== Sys2Proof/Machine/Step.lean ====
section
/-! DEFINITION. The `step()` transaction (40_interpreter R66), and placing an instruction where it is fetched next. -/

namespace Sys2Proof.Machine

open Sys2Proof

/-- One `step()` transaction, by mode (R66). -/
def step (s : State) : Host.Outcome State Fault Refusal :=
  match s.mode with
  | .halted f => haltedStep f s
  | .waitingForKey x => keywaitPoll x s
  | .running => runningStep s

/-- `s` with the instruction whose table bits are `w` stored at `pc` and the mode `Running`, so that `step` fetches and runs
exactly it (assumption log 13). -/
def State.withFetchWord (s : State) (nbits w : Nat) : State := s.placeWord (tableWord nbits w)

end Sys2Proof.Machine
end

