-- ==== Sys2Proof/Machine/Transactions.lean ====
section
/-! DEFINITION. The host's transactions (40_interpreter R63): atomic, serialised, in any order and number (R64). -/

namespace Sys2Proof.Machine

open Sys2Proof

/-- What a snapshot holds (R76): every item of R34 but `keys`, and no configuration. -/
structure Snapshot where
  mem : List Host.Cell
  v : Vector Byte 16
  i : Word
  pc : Addr
  stack : Vector Addr 16
  sp : Fin 17
  dt : Byte
  st : Byte
  fb : FrameBuffer
  keyEdge : Vector Bool 16
  mode : Mode
  deriving DecidableEq, Repr

/-- `SNAPSHOT_FORMAT` (R6, D31, M7): the byte layout of a snapshot blob, which the spec leaves open. It is a parameter the
host's transactions take as an argument, not state: nothing is fixed of it but that it reads back what it writes, and
nothing else (assumption log 11). -/
structure SnapshotFormat where
  /-- The blob of a snapshot. -/
  write : Snapshot → List Byte
  /-- The snapshot of a blob, if it is the blob of one. -/
  read : List Byte → Option Snapshot
  /-- A blob reads as the snapshot whose blob it is (R76). -/
  read_eq_some_iff : ∀ blob b, read blob = some b ↔ write b = blob

/-- The transactions of R63. -/
inductive Transaction where
  | construct (cfg : Config)
  | step
  | tickTimers
  | setKey (k : Nat) (pressed : Bool)
  | readDisplay
  | soundActive
  | load (bytes : List Byte)
  | reset
  | snapshot
  | restore (blob : List Byte)
  deriving DecidableEq, Repr

/-- What a transaction returns (R63). -/
inductive Reply where
  /-- No result. -/
  | unit
  /-- The result of `step()` (R71). -/
  | step (r : StepResult)
  /-- The 64x32 grid of `read_display()` (R74). -/
  | display (fb : FrameBuffer)
  /-- The flag of `sound_active()` (R75). -/
  | sound (active : Bool)
  /-- `Ok(())` of `load` (R138). -/
  | loaded
  /-- `Err(RomTooLarge)` of `load` (R138). -/
  | romTooLarge
  /-- The blob of `snapshot()` (R76), in the bytes of the `SNAPSHOT_FORMAT`. -/
  | blob (bytes : List Byte)
  deriving DecidableEq, Repr

/-- A timer after a tick: one less, if nonzero (R127). -/
def tickByte (t : Byte) : Byte := if t = 0 then t else t - 1

/-- `tick_timers()` (R127), the same in every mode. -/
def State.tickTimers (s : State) : State := (s.setDt (tickByte s.dt)).setSt (tickByte s.st)

/-- `set_key(k, p)` for `k` in 0..15 (R73). -/
def State.setKey (s : State) (k : Key) (pressed : Bool) : State :=
  if pressed then
    if s.keys[k] then s else { s with keys := s.keys.set k true, keyEdge := s.keyEdge.set k true }
  else { s with keys := s.keys.set k false }

/-- `sound_active()` (R75). -/
def State.soundActive (s : State) : Bool := s.st != 0

/-- The mode after a `load` (R138): `Running`, unless `Halted`. -/
def modeAfterLoad : Mode → Mode
  | .halted f => .halted f
  | .waitingForKey _ => .running
  | .running => .running

/-- `load(bytes)` of a ROM that fits (R138). -/
def State.loadRom (s : State) (bytes : List Byte) : State :=
  ((s.storeBytes romBase bytes).setPc 0x200).setMode (modeAfterLoad s.mode)

/-- A core made anew: construction values (R135), with the draws of `RAND` going on (assumption log 3). -/
def State.constructAgain (s : State) (cfg : Config) : State := { State.construct cfg with draws := s.draws }

/-- `reset()` (R136): construction values, but for the configuration and the host's `keys`. -/
def State.resetCore (s : State) : State := { s.constructAgain s.cfg with keys := s.keys }

/-- `snapshot()` (R76). -/
def State.snapshot (s : State) : Snapshot :=
  { mem := s.mem, v := s.v, i := s.i, pc := s.pc, stack := s.stack, sp := s.sp, dt := s.dt, st := s.st, fb := s.fb,
    keyEdge := s.keyEdge, mode := s.mode }

/-- `restore(blob)` (R76): the blob's items; the configuration, `keys` and the model's own fields stay. -/
def State.restore (s : State) (b : Snapshot) : State :=
  { s with
    mem := b.mem, v := b.v, i := b.i, pc := b.pc, stack := b.stack, sp := b.sp, dt := b.dt, st := b.st, fb := b.fb,
    keyEdge := b.keyEdge, mode := b.mode }

/-- What a transaction answers: the next state with the reply, or why it stops. -/
abbrev Response := Host.Outcome (State × Reply) Fault Refusal

/-- The `step()` transaction with the result it returns (R71). -/
def stepTransaction (s : State) : Response :=
  match step s with
  | .next t => .next (t, .step t.result)
  | .fault f => .fault f
  | .refused r => .refused r

/-- `restore(blob)` (R76): the state of a blob that `snapshot()` of a core with this configuration makes; any other blob is
refused. -/
def restoreTransaction (fmt : SnapshotFormat) (blob : List Byte) (s : State) : Response :=
  match fmt.read blob with
  | some b => if Memory.wf s.cfg b.mem then .next (s.restore b, .unit) else .refused .blobNotFromSnapshot
  | none => .refused .blobNotFromSnapshot

/-- One transaction of the host (R63), under a `SNAPSHOT_FORMAT` (R6). -/
def transact (fmt : SnapshotFormat) (t : Transaction) (s : State) : Response :=
  match t with
  | .construct cfg => .next (s.constructAgain cfg, .unit)
  | .step => stepTransaction s
  | .tickTimers => .next (s.tickTimers, .unit)
  | .setKey k pressed => if h : k < 16 then .next (s.setKey ⟨k, h⟩ pressed, .unit) else .refused (.keyIndexOutsideInterface k)
  | .readDisplay => .next (s, .display s.fb)
  | .soundActive => .next (s, .sound s.soundActive)
  | .load bytes => if bytes.length ≤ romMax then .next (s.loadRom bytes, .loaded) else .next (s, .romTooLarge)
  | .reset => .next (s.resetCore, .unit)
  | .snapshot => .next (s, .blob (fmt.write s.snapshot))
  | .restore blob => restoreTransaction fmt blob s

/-- A sequence of transactions, one after the other, with their replies (R63, R64). -/
def transactAll (fmt : SnapshotFormat) : List Transaction → State → Host.Outcome (State × List Reply) Fault Refusal
  | [], s => .next (s, [])
  | t :: ts, s =>
    match transact fmt t s with
    | .next (s', r) =>
      match transactAll fmt ts s' with
      | .next (s'', rs) => .next (s'', r :: rs)
      | .fault f => .fault f
      | .refused q => .refused q
    | .fault f => .fault f
    | .refused q => .refused q

end Sys2Proof.Machine
end

