-- ==== Sys2Proof/Safety.lean ====
section
/-! DEFINITION. The terms in which claims speak: what a step leaves unchanged, the invariant of the memory, the pixels a
sprite covers, and the three conditions in which a run ends. -/

namespace Sys2Proof.Machine

open Sys2Proof

/-- The parts of the state a claim's frame speaks of. The configuration and the key levels are not among them: no
instruction may change them (R6, R29). Nor is `result`: each claim says what it is. -/
inductive Part where
  | registers
  | index
  | pc
  | stackEntries
  | stackPointer
  | delayTimer
  | soundTimer
  | display
  | latch
  | mode
  | memory
  | draws
  deriving DecidableEq, Repr

/-- A part reads the same in both states; of memory, every byte does. -/
def Unchanged (s t : State) : Part → Prop
  | .registers => t.v = s.v
  | .index => t.i = s.i
  | .pc => t.pc = s.pc
  | .stackEntries => t.stack = s.stack
  | .stackPointer => t.sp = s.sp
  | .delayTimer => t.dt = s.dt
  | .soundTimer => t.st = s.st
  | .display => t.fb = s.fb
  | .latch => t.keyEdge = s.keyEdge
  | .mode => t.mode = s.mode
  | .memory => ∀ a, t.readByte a = s.readByte a
  | .draws => t.draws = s.draws

/-- The frame of a claim: the configuration, the key levels and every part but the listed ones are unchanged. -/
def KeepsAllBut (changed : List Part) (s t : State) : Prop :=
  t.cfg = s.cfg ∧ t.keys = s.keys ∧ ∀ p, p ∉ changed → Unchanged s t p

/-- A step in state `s` runs the instruction `i`: the mode is `Running` and the fetched word decodes to `i` (R66). -/
def Runs (s : State) (i : Instr) : Prop := s.mode = .running ∧ decodeWord s.fetchWord = some i

/-- `w` is the one word that stands for the instruction `i` (R57). -/
def IsWordOf (w : Word) (i : Instr) : Prop := ∀ u, decodeWord u = some i ↔ u = w

/-- `V[x]` becomes `b`, and every other register is unchanged. -/
def RegBecomes (s t : State) (x : Reg) (b : Byte) : Prop :=
  t.getReg x = b ∧ ∀ z, z ≠ x → t.getReg z = s.getReg z

/-- VF becomes `f`, `V[x]` becomes `r` unless it is VF itself, whose flag wins (R17), and every other register is
unchanged. -/
def RegAndFlagBecome (s t : State) (x : Reg) (r f : Byte) : Prop :=
  t.getReg 0xF = f ∧ (x ≠ 0xF → t.getReg x = r) ∧ ∀ z, z ≠ x → z ≠ 0xF → t.getReg z = s.getReg z

/-- The invariant of the memory: it is in its canonical form. -/
def Canonical (s : State) : Prop := Memory.wf s.cfg s.mem = true

/-- No key is latched (R30). -/
abbrev NoKeyLatched (s : State) : Prop := ∀ k : Key, s.keyEdge[k] = false

/-- The font bytes read as `FONT_DATA` at `FONT_BASE` (R45). -/
def FontIntact (s : State) : Prop := ∀ k : Fin 80, s.readByte (s.cfg.fontBase.val + k.val) = s.cfg.fontData[k]

/-- The MemoryBank is at its "zero/font state" (R46): the font at `FONT_BASE`, every other byte 0x00. -/
def FreshMemory (s : State) : Prop :=
  FontIntact s ∧ ∀ a, a < 4096 → a < s.cfg.fontBase.val ∨ s.cfg.fontBase.val + 80 ≤ a → s.readByte a = 0x00

/-- Every item of R34 has its construction value for the configuration `cfg` (R135). -/
def AtConstruction (cfg : Config) (t : State) : Prop :=
  t.cfg = cfg ∧ FreshMemory t ∧ (∀ x, t.getReg x = 0) ∧ t.i = 0 ∧ t.pc = 0x200 ∧ (∀ k : Fin 16, t.stack[k] = 0) ∧
    t.sp = 0 ∧ t.dt = 0 ∧ t.st = 0 ∧ (∀ y x, pixelAt t.fb y x = false) ∧ (∀ k : Fin 16, t.keys[k] = false) ∧
    NoKeyLatched t ∧ t.mode = .running

/-- The next fetch reads the byte `b` where it reads the address `a`, as the high or as the low byte of its word (R39). -/
def FetchReads (t : State) (a : Nat) (b : Byte) : Prop :=
  (a % 4096 = t.pc.toNat → highByte t.fetchWord = b) ∧
    (a % 4096 = (t.pc.toNat + 1) % 4096 → lowByte t.fetchWord = b)

/-- `V[z]` is a register the instruction writes, as its destination or as the flag (R18). -/
def WritesReg (z : Reg) : Instr → Prop
  | .cls | .ret | .jp _ | .call _ | .seImm _ _ | .sneImm _ _ | .seReg _ _ | .sneReg _ _ | .jpV0 _ => False
  | .ldImm x _ | .addImm x _ | .ldReg x _ | .orReg x _ | .andReg x _ | .xorReg x _ | .rnd x _ | .ldXDt x => z = x
  | .addReg x _ | .sub x _ | .shr x _ | .subn x _ | .shl x _ => z = x ∨ z = 0xF
  | .drw _ _ _ => z = 0xF
  | .ldXMem x => z ≤ x
  | .ldI _ | .skp _ | .sknp _ | .ldXK _ | .ldDtX _ | .ldStX _ | .addIX _ | .ldFX _ | .ldBX _ | .ldMemX _ => False

/-- The mode a step has changed to, and why: `FX0A`, a completed key wait, or one of the three faults (R31, R114, R115,
R119). -/
inductive ModeChange (s : State) : Mode → Prop where
  | keyWait (x : Reg) (h : Runs s (.ldXK x)) : ModeChange s (.waitingForKey x)
  | keyPressed (x : Reg) (h : s.mode = .waitingForKey x) (k : ¬ NoKeyLatched s) : ModeChange s .running
  | overflow (nnn : Addr) (h : Runs s (.call nnn)) (full : s.sp.val = 16) : ModeChange s (.halted .stackOverflow)
  | underflow (h : Runs s .ret) (empty : s.sp.val = 0) : ModeChange s (.halted .stackUnderflow)
  | invalid (h : s.mode = .running) (d : decodeWord s.fetchWord = none) (p : s.cfg.invalidOpcodeFatal = true) :
      ModeChange s (.halted (.invalidOpcode s.fetchWord))

/-- The sprite that `DXYN` draws in state `s` covers the pixel at row `py`, column `px`: a set bit of one of its `n` bytes
lands there, wrapped when `DRAW_WRAPS` and clipped otherwise (R78, R79). -/
def SpriteCovers (s : State) (x y : Reg) (n : Nibble) (py : Fin 32) (px : Fin 64) : Prop :=
  ∃ r, r < n.toNat ∧ ∃ c, c < 8 ∧ (s.readByte (s.dataAddress r)).getLsbD (7 - c) = true ∧
    if s.cfg.drawWraps then
      ((s.getReg x).toNat % 64 + c) % 64 = px.val ∧ ((s.getReg y).toNat % 32 + r) % 32 = py.val
    else (s.getReg x).toNat % 64 + c = px.val ∧ (s.getReg y).toNat % 32 + r = py.val

/-- The word at `pc` is a jump to `pc` itself (R82, R140). -/
def AtSelfJump (s : State) : Prop := s.mode = .running ∧ decodeWord s.fetchWord = some (.jp s.pc)

/-- A condition in which a run ends (R140), with the result every further step then returns. -/
inductive Quiescent (s : State) : StepResult → Prop where
  /-- `Halted(f)` after a fault. -/
  | halted (f : Fault) (h : s.mode = .halted f) : Quiescent s (.err f)
  /-- `WaitingForKey(x)` with no key latched. -/
  | waiting (x : Reg) (h : s.mode = .waitingForKey x) (k : NoKeyLatched s) : Quiescent s (.ok .idle)
  /-- A jump to its own address. -/
  | selfJump (h : AtSelfJump s) : Quiescent s (.ok .executed)

end Sys2Proof.Machine
end

