-- ==== Sys2Proof/Certificates/Slice0/Obligations.lean ====
section
/-! DEFINITION. The statements for the provers, from the spec's numbered rules. The model records what a step returns in
its own field `result` (assumption log 4), so "emit e" reads `t.result = .ok e`. Every statement is over every state and so
over every configuration. "D<n>" names a decision of spec/92_eei_decisions.md: a clause that rests on one is the spec's own
choice, not the source's, and its statement has basis 'derived'. -/

open Sys2Proof Sys2Proof.Machine

/-! ### The step cycle -/

/-- R66: a step, by mode. In `Running` it fetches the big-endian word at `pc`, advances `pc` by 2 and runs the decoded
instruction, or the invalid word. -/
def Obligations.StepRunsTheDecodedInstruction : Prop :=
  ∀ s : State,
    (∀ f, s.mode = .halted f → step s = .next { s with result := .err f }) ∧
    (∀ x, s.mode = .waitingForKey x → step s = keywaitPoll x s) ∧
    (∀ w : Word, w = s.readByte s.pc.toNat ++ s.readByte (s.pc.toNat + 1) → s.mode = .running →
      (∀ i, decodeWord w = some i → step s = exec i { s with pc := s.pc + 2 }) ∧
      (decodeWord w = none → step s = execInvalid w { s with pc := s.pc + 2 }))

/-- R119, R6, R29: every step answers a next state, from every state, and keeps the configuration and the key levels. The
model takes each fault as the mode `Halted` (assumption log 6). -/
def Obligations.EveryStepAnswersANextState : Prop :=
  ∀ s : State, ∃ t, step s = .next t ∧ t.cfg = s.cfg ∧ t.keys = s.keys

/-- R71, R120: after a step the machine is halted with fault `f` just when the step returned `Err(f)`. -/
def Obligations.ResultIsErrJustWhenHalted : Prop :=
  ∀ (s t : State) (f : Fault), step s = .next t → (t.result = .err f ↔ t.mode = .halted f)

/-- R72 and R120 (D17, D22): an invalid word halts with the word recorded and `pc` advanced, or is a no-op. -/
def Obligations.InvalidWordHaltsOrIsSkipped : Prop :=
  ∀ s : State, s.mode = .running → decodeWord s.fetchWord = none →
    step s = if s.cfg.invalidOpcodeFatal then
        .next { s with pc := s.pc + 2, mode := .halted (.invalidOpcode s.fetchWord),
                       result := .err (.invalidOpcode s.fetchWord) }
      else .next { s with pc := s.pc + 2, result := .ok .executed }

/-- R19, R24, R27, R28, R30, R42, R68, R127: which instruction a step must have run if it changed a byte of memory, a pixel,
the stack, `I`, a timer or the press latch, or drew a byte of `RAND`; which registers it can have changed (R18); and how it
changed the mode (R31, R119). -/
def Obligations.EachPartChangesOnlyByItsInstructions : Prop :=
  ∀ s t : State, step s = .next t →
    ((∃ a, t.readByte a ≠ s.readByte a) → ∃ x, Runs s (.ldBX x) ∨ Runs s (.ldMemX x)) ∧
    (t.fb ≠ s.fb → Runs s .cls ∨ ∃ x y n, Runs s (.drw x y n)) ∧
    (t.stack ≠ s.stack → ∃ nnn, Runs s (.call nnn)) ∧
    (t.sp ≠ s.sp → Runs s .ret ∨ ∃ nnn, Runs s (.call nnn)) ∧
    (t.i ≠ s.i → (∃ nnn, Runs s (.ldI nnn)) ∨ (∃ x, Runs s (.addIX x) ∨ Runs s (.ldFX x)) ∨
      s.cfg.lsIncrementsI = true ∧ ∃ x, Runs s (.ldMemX x) ∨ Runs s (.ldXMem x)) ∧
    (t.dt ≠ s.dt → ∃ x, Runs s (.ldDtX x)) ∧
    (t.st ≠ s.st → ∃ x, Runs s (.ldStX x)) ∧
    (t.draws ≠ s.draws → ∃ x nn, Runs s (.rnd x nn)) ∧
    (t.keyEdge ≠ s.keyEdge → (∃ x, Runs s (.ldXK x)) ∨ ∃ x, s.mode = .waitingForKey x) ∧
    (∀ z, t.getReg z ≠ s.getReg z → (∃ i, Runs s i ∧ WritesReg z i) ∨ s.mode = .waitingForKey z) ∧
    (t.pc ≠ s.pc → s.mode = .running) ∧
    (t.mode ≠ s.mode → ModeChange s t.mode)

/-- R68: only `EX9E` and `EXA1` read the key levels. A step that runs neither does the same whatever the levels are. -/
def Obligations.OnlyKeySkipsReadTheKeyLevels : Prop :=
  ∀ (s t : State) (ks : Vector Bool 16),
    (∀ x, ¬ Runs s (.skp x) ∧ ¬ Runs s (.sknp x)) →
    step s = .next t → step { s with keys := ks } = .next { t with keys := ks }

/-- R140: in each of the three conditions in which a run ends, a step returns the condition's result and changes nothing. -/
def Obligations.QuiescentStatesStay : Prop :=
  ∀ (s : State) (r : StepResult), Quiescent s r → step s = .next { s with result := r }

/-! ### Encoding -/

/-- R57: words written out from the encodings of R55 and R58 decode to the instructions they stand for. -/
def Obligations.SampleWordsDecode : Prop :=
  decodeWord 0b0000000011100000 = some .cls ∧ decodeWord 0b0010010001010110 = some (.call 0x456) ∧
  decodeWord 0b0101001101000000 = some (.seReg 3 4) ∧ decodeWord 0b1000000100100111 = some (.subn 1 2) ∧
  decodeWord 0b1101111100010101 = some (.drw 0xF 1 5) ∧ decodeWord 0b1110010110100001 = some (.sknp 5) ∧
  decodeWord 0b1111101000110011 = some (.ldBX 0xA) ∧ decodeWord 0b1111001001100101 = some (.ldXMem 2) ∧
  decodeWord 0b1000000100101111 = none ∧ decodeWord 0b0000000100100011 = none

/-- R54, R55, R57, R58: decoding the encoding of any instruction gives it back with every operand, from a word and from the
bytes in memory order. -/
def Obligations.DecodeOfEncodeIsTheInstruction : Prop :=
  ∀ (i : Instr) (rest : List Byte),
    decodeWord (encode i) = some i ∧ decodeBytes (bytesOfWord (encode i) ++ rest) = .instr i rest

/-- R57: no bit of a decoded word is dropped: its instruction encodes to it. -/
def Obligations.EncodeOfDecodeIsTheWord : Prop :=
  ∀ (w : Word) (i : Instr), decodeWord w = some i → encode i = w

/-- R58: a word is an instruction just when the instruction's row selects it by match and mask, and then it is the only row
of the table that does. -/
def Obligations.DecoderAgreesWithTheOpcodeTable : Prop :=
  ∀ w : Word,
    (∀ r ∈ opcodeRows, w &&& r.mask = r.bits → ∃ i, decodeWord w = some i ∧ i.row = r) ∧
    (∀ i, decodeWord w = some i → i.row ∈ opcodeRows ∧ w &&& i.row.mask = i.row.bits)

/-- R59, R60: the invalid words, by major opcode. -/
def Obligations.InvalidWordsAreThoseListed : Prop :=
  ∀ w : Word, decodeWord w = none ↔
    w.toNat / 4096 = 0x0 ∧ w ≠ 0x00E0 ∧ w ≠ 0x00EE ∨
    (w.toNat / 4096 = 0x5 ∨ w.toNat / 4096 = 0x9) ∧ w.toNat % 16 ≠ 0 ∨
    w.toNat / 4096 = 0x8 ∧ w.toNat % 16 ∈ [0x8, 0x9, 0xA, 0xB, 0xC, 0xD, 0xF] ∨
    w.toNat / 4096 = 0xE ∧ w.toNat % 256 ∉ [0x9E, 0xA1] ∨
    w.toNat / 4096 = 0xF ∧ w.toNat % 256 ∉ [0x07, 0x0A, 0x15, 0x18, 0x1E, 0x29, 0x33, 0x55, 0x65]

/-! ### Memory -/

/-- R37, R38: a write sets the byte at its address modulo 4096 and changes no other location. -/
def Obligations.WriteSetsOneByte : Prop :=
  ∀ (s : State) (a b : Nat) (v : Byte),
    (s.writeByte a v).readByte b = if b % 4096 = a % 4096 then v else s.readByte b

/-- The model's canonical form (assumption log 9): memories that read the same at every address are the same data. -/
def Obligations.CanonicalMemoriesWithEqualBytesAreEqual : Prop :=
  ∀ s t : State, s.cfg = t.cfg → Canonical s → Canonical t → (∀ a, s.readByte a = t.readByte a) → s.mem = t.mem

/-- R46: after construction and after reset, each as its transaction leaves it, the font stands at `FONT_BASE` and every
other byte is 0x00. -/
def Obligations.ConstructionAndResetLeaveFontAndZeros : Prop :=
  ∀ (fmt : SnapshotFormat) (cfg : Config) (s t : State),
    t = State.construct cfg ∨ t = s.resetCore ∨ transact fmt (.construct cfg) s = .next (t, .unit) ∨
      transact fmt .reset s = .next (t, .unit) →
    FreshMemory t

/-- R51, with R107 (D8) and R108: every byte `FX55` or `FX33` stores over the current `pc`, one or both of the two, is in
the word the next step fetches, and so is every byte it leaves. -/
def Obligations.StoredWordIsFetchedNext : Prop :=
  ∀ (s : State) (x : Reg),
    (∃ t, exec (.ldMemX x) s = .next t ∧ t.pc = s.pc ∧
      (∀ k : Reg, k ≤ x → FetchReads t (s.dataAddress k.val) (s.getReg k)) ∧
      (∀ a, (∀ k : Reg, k ≤ x → a % 4096 ≠ s.dataAddress k.val % 4096) → FetchReads t a (s.readByte a)) ∧
      (1 ≤ x.val → s.i.toNat % 4096 = s.pc.toNat → t.fetchWord = s.getReg 0 ++ s.getReg 1)) ∧
    (∃ t, exec (.ldBX x) s = .next t ∧ t.pc = s.pc ∧
      FetchReads t (s.dataAddress 0) (BitVec.ofNat 8 ((s.getReg x).toNat / 100)) ∧
      FetchReads t (s.dataAddress 1) (BitVec.ofNat 8 ((s.getReg x).toNat / 10 % 10)) ∧
      FetchReads t (s.dataAddress 2) (BitVec.ofNat 8 ((s.getReg x).toNat % 10)) ∧
      (∀ a, (∀ k, k ≤ 2 → a % 4096 ≠ s.dataAddress k % 4096) → FetchReads t a (s.readByte a)))

/-! ### Construction, reset and the invariant -/

/-- R34, R46 and R135 (D23): every item after construction, the MemoryBank among them, as `construct` leaves it and as the
construct transaction does; and `State.reset` is construction with the defaults of R6 and the font of R45 (D5, D6;
assumption log 5). -/
def Obligations.ConstructionValues : Prop :=
  (∀ cfg : Config, AtConstruction cfg (State.construct cfg)) ∧
  (∀ (fmt : SnapshotFormat) (cfg : Config) (s : State),
    ∃ t, transact fmt (.construct cfg) s = .next (t, .unit) ∧ AtConstruction cfg t) ∧
  State.reset = State.construct State.reset.cfg ∧ State.reset.cfg.shiftUsesVy = false ∧
  State.reset.cfg.drawWraps = true ∧ State.reset.cfg.lsIncrementsI = false ∧
  State.reset.cfg.invalidOpcodeFatal = true ∧ State.reset.cfg.fontBase.val = 0x050 ∧
  State.reset.cfg.fontData.toList =
    [0xF0, 0x90, 0x90, 0x90, 0xF0, 0x20, 0x60, 0x20, 0x20, 0x70, 0xF0, 0x10, 0xF0, 0x80, 0xF0, 0xF0, 0x10, 0xF0, 0x10, 0xF0,
     0x90, 0x90, 0xF0, 0x10, 0x10, 0xF0, 0x80, 0xF0, 0x10, 0xF0, 0xF0, 0x80, 0xF0, 0x90, 0xF0, 0xF0, 0x10, 0x20, 0x40, 0x40,
     0xF0, 0x90, 0xF0, 0x90, 0xF0, 0xF0, 0x90, 0xF0, 0x10, 0xF0, 0xF0, 0x90, 0xF0, 0x90, 0x90, 0xE0, 0x90, 0xE0, 0x90, 0xE0,
     0xF0, 0x80, 0x80, 0x80, 0xF0, 0xE0, 0x90, 0x90, 0x90, 0xE0, 0xF0, 0x80, 0xF0, 0x80, 0xF0, 0xF0, 0x80, 0xF0, 0x80, 0x80]

/-- R136 (D23): `reset()` sets every item to its construction value but the configuration and the key levels, in every
mode. Of the model's own fields, by the model's own choice, the count of `RAND` bytes goes on (assumption log 3) and
`result` is `Ok(Idle)` again (assumption logs 4 and 10). -/
def Obligations.ResetKeepsOnlyConfigurationAndKeys : Prop :=
  ∀ (fmt : SnapshotFormat) (s : State), transact fmt .reset s =
    .next ({ State.construct s.cfg with keys := s.keys, draws := s.draws }, .unit)

/-- The invariant holds after construction, whatever the configuration, and so at reset (assumption log 9). -/
def Obligations.ConstructionIsCanonical : Prop :=
  (∀ cfg, Canonical (State.construct cfg)) ∧ Canonical State.reset

/-- R35, R38: every step keeps the memory in its canonical form: addresses rise, stay below 4096, and no listed byte equals
its reset content. -/
def Obligations.EveryStepKeepsMemoryCanonical : Prop :=
  ∀ s t : State, Canonical s → step s = .next t → Canonical t

/-- R63, R64: whatever sequence of transactions the host issues, the memory stays canonical. -/
def Obligations.EveryTransactionSequenceKeepsMemoryCanonical : Prop :=
  ∀ (fmt : SnapshotFormat) (ts : List Transaction) (s t : State) (rs : List Reply),
    Canonical s → transactAll fmt ts s = .next (t, rs) → Canonical t

/-! ### Display -/

/-- R77 (D26 for `Redraw`): `00E0` clears every pixel. -/
def Obligations.ClsClearsEveryPixel : Prop :=
  ∀ s : State, ∃ t, exec .cls s = .next t ∧ t.result = .ok .redraw ∧ (∀ y x, pixelAt t.fb y x = false) ∧
    KeepsAllBut [.display] s t

/-- R79 (D2, D9, D10, D11): `DXYN` flips exactly the pixels its sprite covers, and VF is 1 just when a covered pixel was
set before. -/
def Obligations.DrawFlipsTheCoveredPixels : Prop :=
  ∀ (s : State) (x y : Reg) (n : Nibble), ∃ t, exec (.drw x y n) s = .next t ∧ t.result = .ok .redraw ∧
    (∀ py px, SpriteCovers s x y n py px → pixelAt t.fb py px = !pixelAt s.fb py px) ∧
    (∀ py px, ¬ SpriteCovers s x y n py px → pixelAt t.fb py px = pixelAt s.fb py px) ∧
    ((∃ py px, SpriteCovers s x y n py px ∧ pixelAt s.fb py px = true) → RegBecomes s t 0xF 1) ∧
    ((¬ ∃ py px, SpriteCovers s x y n py px ∧ pixelAt s.fb py px = true) → RegBecomes s t 0xF 0) ∧
    KeepsAllBut [.display, .registers] s t

/-- The source's draw property (95_test_vectors S7): a second draw of the same sprite at the same coordinates restores the
frame buffer, and VF is 1 just when the sprite covers a pixel that was unset at first. -/
def Obligations.DrawingTwiceRestoresTheScreen : Prop :=
  ∀ (s : State) (x y : Reg) (n : Nibble), x ≠ 0xF → y ≠ 0xF →
    ∃ t u, exec (.drw x y n) s = .next t ∧ exec (.drw x y n) t = .next u ∧ u.fb = s.fb ∧
      (u.getReg 0xF = 1 ↔ ∃ py px, SpriteCovers s x y n py px ∧ pixelAt s.fb py px = false)

/-! ### Control transfer -/

/-- R81: `00EE` is the word 0x00EE; it pops into `pc`, or halts with `StackUnderflow` when no entry is in use. -/
def Obligations.ReturnPopsOrUnderflows : Prop :=
  IsWordOf 0x00EE .ret ∧ ∀ s : State,
    (0 < s.sp.val → ∃ t, exec .ret s = .next t ∧ t.result = .ok .executed ∧ t.sp.val = s.sp.val - 1 ∧
      s.stack[t.sp.val]? = some t.pc ∧ KeepsAllBut [.pc, .stackPointer] s t) ∧
    (s.sp.val = 0 → exec .ret s = .next { s with mode := .halted .stackUnderflow, result := .err .stackUnderflow })

/-- R82: `1NNN`, its word, jumps. -/
def Obligations.JumpSetsThePc : Prop :=
  ∀ (s : State) (nnn : Addr), IsWordOf (BitVec.ofNat 16 (0x1000 + nnn.toNat)) (.jp nnn) ∧
    ∃ t, exec (.jp nnn) s = .next t ∧ t.result = .ok .executed ∧ t.pc = nnn ∧ KeepsAllBut [.pc] s t

/-- R83: `2NNN` pushes the advanced `pc` and jumps, or halts with `StackOverflow` when 16 entries are in use. -/
def Obligations.CallPushesOrOverflows : Prop :=
  ∀ (s : State) (nnn : Addr), IsWordOf (BitVec.ofNat 16 (0x2000 + nnn.toNat)) (.call nnn) ∧
    (s.sp.val < 16 → ∃ t, exec (.call nnn) s = .next t ∧ t.result = .ok .executed ∧ t.pc = nnn ∧
      t.sp.val = s.sp.val + 1 ∧ t.stack[s.sp.val]? = some s.pc ∧
      (∀ k : Fin 16, k.val ≠ s.sp.val → t.stack[k] = s.stack[k]) ∧
      KeepsAllBut [.pc, .stackEntries, .stackPointer] s t) ∧
    (s.sp.val = 16 →
      exec (.call nnn) s = .next { s with mode := .halted .stackOverflow, result := .err .stackOverflow })

/-- The source's call property (95_test_vectors S5): a return from any state with the stack a call left goes back to the
address after the call and leaves the caller's stack. -/
def Obligations.ReturnUndoesCall : Prop :=
  ∀ (s : State) (nnn : Addr), s.sp.val < 16 →
    ∃ t, exec (.call nnn) s = .next t ∧ ∀ u : State, u.stack = t.stack → u.sp = t.sp →
      ∃ w, exec .ret u = .next w ∧ w.pc = s.pc ∧ w.sp = s.sp ∧ ∀ k : Fin 16, k.val < s.sp.val → w.stack[k] = s.stack[k]

/-- R84 (D3): `BNNN` jumps to `NNN + V[0]`, modulo 4096. -/
def Obligations.JumpWithOffsetAddsV0 : Prop :=
  ∀ (s : State) (nnn : Addr), ∃ t, exec (.jpV0 nnn) s = .next t ∧ t.result = .ok .executed ∧
    t.pc.toNat = (nnn.toNat + (s.getReg 0).toNat) % 4096 ∧ KeepsAllBut [.pc] s t

/-- R85, R86: the skips on an immediate byte. -/
def Obligations.ImmediateSkips : Prop :=
  ∀ (s : State) (x : Reg) (nn : Byte),
    (IsWordOf (BitVec.ofNat 16 (0x3000 + 256 * x.val + nn.toNat)) (.seImm x nn) ∧ ∃ t,
      exec (.seImm x nn) s = .next t ∧ t.result = .ok .executed ∧
      t.pc = (if s.getReg x = nn then s.pc + 2 else s.pc) ∧ KeepsAllBut [.pc] s t) ∧
    (IsWordOf (BitVec.ofNat 16 (0x4000 + 256 * x.val + nn.toNat)) (.sneImm x nn) ∧ ∃ t,
      exec (.sneImm x nn) s = .next t ∧ t.result = .ok .executed ∧
      t.pc = (if s.getReg x = nn then s.pc else s.pc + 2) ∧ KeepsAllBut [.pc] s t)

/-- R87, R88: the skips on two registers. -/
def Obligations.RegisterSkips : Prop :=
  ∀ (s : State) (x y : Reg),
    (IsWordOf (BitVec.ofNat 16 (0x5000 + 256 * x.val + 16 * y.val)) (.seReg x y) ∧ ∃ t,
      exec (.seReg x y) s = .next t ∧ t.result = .ok .executed ∧
      t.pc = (if s.getReg x = s.getReg y then s.pc + 2 else s.pc) ∧ KeepsAllBut [.pc] s t) ∧
    (IsWordOf (BitVec.ofNat 16 (0x9000 + 256 * x.val + 16 * y.val)) (.sneReg x y) ∧ ∃ t,
      exec (.sneReg x y) s = .next t ∧ t.result = .ok .executed ∧
      t.pc = (if s.getReg x = s.getReg y then s.pc else s.pc + 2) ∧ KeepsAllBut [.pc] s t)

/-- R111, R112 with the key of R110 (D19: the low nibble of `V[X]`): the skips on a key level. -/
def Obligations.KeySkips : Prop :=
  ∀ (s : State) (x : Reg) (k : Key), k.val = (s.getReg x &&& 0x0F).toNat →
    (∃ t, exec (.skp x) s = .next t ∧ t.result = .ok .executed ∧
      t.pc = (if s.keys[k] = true then s.pc + 2 else s.pc) ∧ KeepsAllBut [.pc] s t) ∧
    (∃ t, exec (.sknp x) s = .next t ∧ t.result = .ok .executed ∧
      t.pc = (if s.keys[k] = true then s.pc else s.pc + 2) ∧ KeepsAllBut [.pc] s t)

/-! ### Register loads, arithmetic, logic, shifts, random -/

/-- R91, R93: `6XNN` writes the immediate, `8XY0` copies a register. -/
def Obligations.RegisterLoads : Prop :=
  ∀ (s : State) (x y : Reg) (nn : Byte),
    (IsWordOf (BitVec.ofNat 16 (0x6000 + 256 * x.val + nn.toNat)) (.ldImm x nn) ∧ ∃ t,
      exec (.ldImm x nn) s = .next t ∧ t.result = .ok .executed ∧ RegBecomes s t x nn ∧
      KeepsAllBut [.registers] s t) ∧
    (IsWordOf (BitVec.ofNat 16 (0x8000 + 256 * x.val + 16 * y.val)) (.ldReg x y) ∧ ∃ t,
      exec (.ldReg x y) s = .next t ∧ t.result = .ok .executed ∧ RegBecomes s t x (s.getReg y) ∧
      KeepsAllBut [.registers] s t)

/-- R92: `7XNN` adds modulo 256 and records no carry anywhere. -/
def Obligations.AddImmediateWrapsWithoutFlag : Prop :=
  ∀ (s : State) (x : Reg) (nn : Byte), IsWordOf (BitVec.ofNat 16 (0x7000 + 256 * x.val + nn.toNat)) (.addImm x nn) ∧ ∃ t,
    exec (.addImm x nn) s = .next t ∧ t.result = .ok .executed ∧
    RegBecomes s t x (BitVec.ofNat 8 ((s.getReg x).toNat + nn.toNat)) ∧ KeepsAllBut [.registers] s t

/-- R94, R95, R96: the bitwise operations, bit by bit; VF is written only as `V[X]` (D16). -/
def Obligations.BitwiseOperations : Prop :=
  ∀ (s : State) (x y : Reg),
    (∃ t b, exec (.orReg x y) s = .next t ∧ t.result = .ok .executed ∧ RegBecomes s t x b ∧
      (∀ k, b.getLsbD k = ((s.getReg x).getLsbD k || (s.getReg y).getLsbD k)) ∧ KeepsAllBut [.registers] s t) ∧
    (∃ t b, exec (.andReg x y) s = .next t ∧ t.result = .ok .executed ∧ RegBecomes s t x b ∧
      (∀ k, b.getLsbD k = ((s.getReg x).getLsbD k && (s.getReg y).getLsbD k)) ∧ KeepsAllBut [.registers] s t) ∧
    (∃ t b, exec (.xorReg x y) s = .next t ∧ t.result = .ok .executed ∧ RegBecomes s t x b ∧
      (∀ k, b.getLsbD k = ((s.getReg x).getLsbD k ^^ (s.getReg y).getLsbD k)) ∧ KeepsAllBut [.registers] s t)

/-- R97: `8XY4` adds modulo 256, then VF is the carry. -/
def Obligations.AddSetsCarry : Prop :=
  ∀ (s : State) (x y : Reg), ∃ t, exec (.addReg x y) s = .next t ∧ t.result = .ok .executed ∧
    RegAndFlagBecome s t x (BitVec.ofNat 8 ((s.getReg x).toNat + (s.getReg y).toNat))
      (if 255 < (s.getReg x).toNat + (s.getReg y).toNat then 1 else 0) ∧ KeepsAllBut [.registers] s t

/-- R98: `8XY5` subtracts modulo 256, then VF is 1 when `V[X] >= V[Y]`. -/
def Obligations.SubtractSetsNoBorrow : Prop :=
  ∀ (s : State) (x y : Reg), ∃ t, exec (.sub x y) s = .next t ∧ t.result = .ok .executed ∧
    RegAndFlagBecome s t x (BitVec.ofNat 8 (256 + (s.getReg x).toNat - (s.getReg y).toNat))
      (if (s.getReg y).toNat ≤ (s.getReg x).toNat then 1 else 0) ∧ KeepsAllBut [.registers] s t

/-- R100 (D13): `8XY7` subtracts the other way, and VF is 1 when `V[Y] >= V[X]`. -/
def Obligations.ReverseSubtractSetsNoBorrow : Prop :=
  ∀ (s : State) (x y : Reg), ∃ t, exec (.subn x y) s = .next t ∧ t.result = .ok .executed ∧
    RegAndFlagBecome s t x (BitVec.ofNat 8 (256 + (s.getReg y).toNat - (s.getReg x).toNat))
      (if (s.getReg x).toNat ≤ (s.getReg y).toNat then 1 else 0) ∧ KeepsAllBut [.registers] s t

/-- R99: `8XY6` shifts its source right, `V[Y]` or `V[X]` by the switch; VF is bit 0 of the source. -/
def Obligations.ShiftRightSetsBitOut : Prop :=
  ∀ (s : State) (x y : Reg) (src : Byte), src = (if s.cfg.shiftUsesVy then s.getReg y else s.getReg x) →
    ∃ t, exec (.shr x y) s = .next t ∧ t.result = .ok .executed ∧
      RegAndFlagBecome s t x (BitVec.ofNat 8 (src.toNat / 2)) (BitVec.ofNat 8 (src.toNat % 2)) ∧
      KeepsAllBut [.registers] s t

/-- R101 (D14: the switch applies here too): `8XYE` shifts its source left; VF is bit 7 of the source. -/
def Obligations.ShiftLeftSetsBitOut : Prop :=
  ∀ (s : State) (x y : Reg) (src : Byte), src = (if s.cfg.shiftUsesVy then s.getReg y else s.getReg x) →
    ∃ t, exec (.shl x y) s = .next t ∧ t.result = .ok .executed ∧
      RegAndFlagBecome s t x (BitVec.ofNat 8 (src.toNat * 2)) (BitVec.ofNat 8 (src.toNat / 128)) ∧
      KeepsAllBut [.registers] s t

/-- R102: `CXNN` masks one fresh byte of `RAND`, the free value of assumption log 3, and uses it up; the mask 0x00 gives 0
whatever the byte is. -/
def Obligations.RandomIsMaskedAndUsedUp : Prop :=
  ∀ (s : State) (x : Reg) (nn : Byte), ∃ t, exec (.rnd x nn) s = .next t ∧ t.result = .ok .executed ∧
    RegBecomes s t x (Config.randByte s.draws &&& nn) ∧ (nn = 0 → t.getReg x = 0) ∧ t.draws = s.draws + 1 ∧
    KeepsAllBut [.registers, .draws] s t

/-! ### Index register and memory transfer -/

/-- R104: `ANNN` loads `I`; its high 4 bits become 0. -/
def Obligations.LoadIndex : Prop :=
  ∀ (s : State) (nnn : Addr), IsWordOf (BitVec.ofNat 16 (0xA000 + nnn.toNat)) (.ldI nnn) ∧
    ∃ t, exec (.ldI nnn) s = .next t ∧ t.result = .ok .executed ∧ t.i.toNat = nnn.toNat ∧ KeepsAllBut [.index] s t

/-- R105 (D16: no flag): `FX1E` adds to `I` modulo 65536. -/
def Obligations.AddToIndex : Prop :=
  ∀ (s : State) (x : Reg), ∃ t, exec (.addIX x) s = .next t ∧ t.result = .ok .executed ∧
    t.i.toNat = (s.i.toNat + (s.getReg x).toNat) % 65536 ∧ KeepsAllBut [.index] s t

/-- R106 and R45 (D5, D7): `FX29` points `I` at the glyph of the low nibble of `V[X]`; while the font
bytes read as `FONT_DATA`, the five bytes there are that glyph's. -/
def Obligations.IndexOfGlyph : Prop :=
  ∀ (s : State) (x : Reg), ∃ t, exec (.ldFX x) s = .next t ∧ t.result = .ok .executed ∧
    t.i.toNat = s.cfg.fontBase.val + 5 * ((s.getReg x).toNat % 16) ∧
    (FontIntact s → ∀ k, k < 5 →
      s.cfg.fontData[5 * ((s.getReg x).toNat % 16) + k]? = some (t.readByte (t.dataAddress k))) ∧
    KeepsAllBut [.index] s t

/-- R107 (D8: hundreds first; D2): `FX33` stores the three decimal digits of `V[X]` at `I`, `I+1`, `I+2` and no other
byte. -/
def Obligations.DecimalDigitsAreStored : Prop :=
  ∀ (s : State) (x : Reg), ∃ t, exec (.ldBX x) s = .next t ∧ t.result = .ok .executed ∧
    (t.readByte (s.dataAddress 0)).toNat = (s.getReg x).toNat / 100 ∧
    (t.readByte (s.dataAddress 1)).toNat = (s.getReg x).toNat / 10 % 10 ∧
    (t.readByte (s.dataAddress 2)).toNat = (s.getReg x).toNat % 10 ∧
    (∀ a, (∀ k, k ≤ 2 → a % 4096 ≠ s.dataAddress k % 4096) → t.readByte a = s.readByte a) ∧
    KeepsAllBut [.memory] s t

/-- R108 (D2, D15): `FX55` stores `V[0]` to `V[X]` from `I` on and no other byte; `I` advances by `X + 1` by the switch. -/
def Obligations.RegistersAreStored : Prop :=
  ∀ (s : State) (x : Reg), ∃ t, exec (.ldMemX x) s = .next t ∧ t.result = .ok .executed ∧
    (∀ k : Reg, k ≤ x → t.readByte (s.dataAddress k.val) = s.getReg k) ∧
    (∀ a, (∀ k : Reg, k ≤ x → a % 4096 ≠ s.dataAddress k.val % 4096) → t.readByte a = s.readByte a) ∧
    t.i.toNat = (if s.cfg.lsIncrementsI then (s.i.toNat + x.val + 1) % 65536 else s.i.toNat) ∧
    KeepsAllBut [.memory, .index] s t

/-- R109 (D2, D15): `FX65` loads `V[0]` to `V[X]` from `I` on and no other register; `I` advances by `X + 1` by the
switch. -/
def Obligations.RegistersAreLoaded : Prop :=
  ∀ (s : State) (x : Reg), ∃ t, exec (.ldXMem x) s = .next t ∧ t.result = .ok .executed ∧
    (∀ k : Reg, k ≤ x → t.getReg k = s.readByte (s.dataAddress k.val)) ∧
    (∀ k : Reg, x < k → t.getReg k = s.getReg k) ∧
    t.i.toNat = (if s.cfg.lsIncrementsI then (s.i.toNat + x.val + 1) % 65536 else s.i.toNat) ∧
    KeepsAllBut [.registers, .index] s t

/-- R108, R109: loading from where registers were stored gives the stored registers, whatever the registers hold then. -/
def Obligations.LoadRestoresStoredRegisters : Prop :=
  ∀ (s : State) (x : Reg), ∃ t, exec (.ldMemX x) s = .next t ∧
    ∀ u : State, u.cfg = t.cfg → u.mem = t.mem → u.i = s.i →
      ∃ w, exec (.ldXMem x) u = .next w ∧ ∀ k : Reg, k ≤ x → w.getReg k = s.getReg k

/-! ### Keypad and timer instructions -/

/-- R113, R117, R118: `FX07` reads the delay timer, `FX15` and `FX18` write the delay and the sound timer. -/
def Obligations.TimerTransfers : Prop :=
  ∀ (s : State) (x : Reg),
    (IsWordOf (BitVec.ofNat 16 (0xF007 + 256 * x.val)) (.ldXDt x) ∧ ∃ t,
      exec (.ldXDt x) s = .next t ∧ t.result = .ok .executed ∧ RegBecomes s t x s.dt ∧
      KeepsAllBut [.registers] s t) ∧
    (IsWordOf (BitVec.ofNat 16 (0xF015 + 256 * x.val)) (.ldDtX x) ∧ ∃ t,
      exec (.ldDtX x) s = .next t ∧ t.result = .ok .executed ∧ t.dt = s.getReg x ∧
      KeepsAllBut [.delayTimer] s t) ∧
    (IsWordOf (BitVec.ofNat 16 (0xF018 + 256 * x.val)) (.ldStX x) ∧ ∃ t,
      exec (.ldStX x) s = .next t ∧ t.result = .ok .executed ∧ t.st = s.getReg x ∧
      KeepsAllBut [.soundTimer] s t)

/-- R114 (D20): `FX0A` clears every latch and enters the wait; a key already held latches nothing. -/
def Obligations.KeyWaitStarts : Prop :=
  ∀ (s : State) (x : Reg), ∃ t, exec (.ldXK x) s = .next t ∧ t.result = .ok .executed ∧ NoKeyLatched t ∧
    t.mode = .waitingForKey x ∧ KeepsAllBut [.latch, .mode] s t

/-- R115 (D20): a step in the wait idles while no key is latched; otherwise it delivers the lowest latched key, clears every
latch and runs on, executing no instruction. -/
def Obligations.KeyWaitPolls : Prop :=
  ∀ (s : State) (x : Reg), s.mode = .waitingForKey x →
    (NoKeyLatched s → step s = .next { s with result := .ok .idle }) ∧
    (∀ k : Key, s.keyEdge[k] = true → (∀ j : Key, j < k → s.keyEdge[j] = false) →
      ∃ t, step s = .next t ∧ t.result = .ok .executed ∧ RegBecomes s t x (BitVec.ofNat 8 k.val) ∧ NoKeyLatched t ∧
        t.mode = .running ∧ KeepsAllBut [.registers, .latch, .mode] s t)

/-- R116, the source's test of the key wait: however often it is polled, the wait returns `Idle` and leaves `pc`; once a
press of an up key is observed, the next step sets `V[X] = k` and the machine runs on. -/
def Obligations.KeyWaitBlocksUntilAPress : Prop :=
  ∀ (fmt : SnapshotFormat) (s : State) (x : Reg) (k : Key) (n : Nat), s.mode = .waitingForKey x → NoKeyLatched s → s.keys[k] = false →
    ∃ t, transactAll fmt (List.replicate n .step ++ [.setKey k.val true, .step]) s =
        .next (t, List.replicate n (.step (.ok .idle)) ++ [.unit, .step (.ok .executed)]) ∧
      RegBecomes s t x (BitVec.ofNat 8 k.val) ∧ t.mode = .running ∧ t.pc = s.pc

/-! ### The host's transactions -/

/-- R127 (D25: in every mode): `n` ticks take `n` off each timer, down to 0 and no further, and change nothing else. -/
def Obligations.TicksCountDownToZero : Prop :=
  ∀ (fmt : SnapshotFormat) (n : Nat) (s : State), ∃ d e : Byte,
    transactAll fmt (List.replicate n .tickTimers) s = .next ({ s with dt := d, st := e }, List.replicate n .unit) ∧
    d.toNat = s.dt.toNat - n ∧ e.toNat = s.st.toNat - n

/-- R73 (D20, D33): `set_key` latches a press of an up key, never a release, and is refused for an index above 15. -/
def Obligations.SetKeyLatchesNewPresses : Prop :=
  ∀ (fmt : SnapshotFormat) (s : State) (k : Nat),
    (∀ h : k < 16,
      (∃ t, transact fmt (.setKey k true) s = .next (t, .unit) ∧ t.keys = s.keys.set k true ∧
        t.keyEdge = (if s.keys[k] = true then s.keyEdge else s.keyEdge.set k true) ∧
        t = { s with keys := t.keys, keyEdge := t.keyEdge }) ∧
      transact fmt (.setKey k false) s = .next ({ s with keys := s.keys.set k false }, .unit)) ∧
    (16 ≤ k → ∀ p, transact fmt (.setKey k p) s = .refused (.keyIndexOutsideInterface k))

/-- R74, R75: `read_display` and `sound_active` return what they should and change nothing, in every mode. -/
def Obligations.ObserversChangeNothing : Prop :=
  ∀ (fmt : SnapshotFormat) (s : State), transact fmt .readDisplay s = .next (s, .display s.fb) ∧
    (s.st ≠ 0 → transact fmt .soundActive s = .next (s, .sound true)) ∧
    (s.st = 0 → transact fmt .soundActive s = .next (s, .sound false))

/-- R138 (D24): `load` copies a ROM that fits to 0x200, sets `pc`, and runs unless halted; a longer one changes nothing. -/
def Obligations.LoadCopiesTheRom : Prop :=
  ∀ (fmt : SnapshotFormat) (s : State) (rom : List Byte),
    (rom.length ≤ 3584 → ∃ t, transact fmt (.load rom) s = .next (t, .loaded) ∧
      (∀ k, k < rom.length → rom[k]? = some (t.readByte (0x200 + k))) ∧
      (∀ a, a < 4096 → a < 0x200 ∨ 0x200 + rom.length ≤ a → t.readByte a = s.readByte a) ∧ t.pc = 0x200 ∧
      ((∃ f, s.mode = .halted f) → t.mode = s.mode) ∧ ((∀ f, s.mode ≠ .halted f) → t.mode = .running) ∧
      t.result = s.result ∧ KeepsAllBut [.memory, .pc, .mode] s t) ∧
    (3584 < rom.length → transact fmt (.load rom) s = .next (s, .romTooLarge))

/-- R139 with R39 and R40: after construction and a load, the machine runs and the first ROM bytes are the word fetched. -/
def Obligations.BootFetchesTheFirstRomWord : Prop :=
  ∀ (fmt : SnapshotFormat) (s : State) (cfg : Config) (hi lo : Byte) (rom : List Byte), rom.length ≤ 3582 →
    ∃ t, transactAll fmt [.construct cfg, .load (hi :: lo :: rom)] s = .next (t, [.unit, .loaded]) ∧ t.cfg = cfg ∧
      t.mode = .running ∧ t.pc = 0x200 ∧ t.fetchWord = hi ++ lo

/-- R76 (D31): restoring a snapshot of a core with the same configuration gives that core's state, whatever
the `SNAPSHOT_FORMAT` (assumption log 11), but for the key levels and the model's own fields, which stay those of the restored core. -/
def Obligations.RestoreOfSnapshotGivesTheStateBack : Prop :=
  ∀ (fmt : SnapshotFormat) (s u : State), Canonical s → u.cfg = s.cfg →
    transact fmt .snapshot s = .next (s, .blob (fmt.write s.snapshot)) ∧
    transact fmt (.restore (fmt.write s.snapshot)) u =
      .next ({ s with keys := u.keys, draws := u.draws, result := u.result }, .unit)

/-- R69 and R124 (D24, D25): a halted core stays halted with the same fault, every step returns that fault, and the
registers, `I`, the stack and the frame buffer stay, through any transactions but `construct`, `reset` and `restore`. -/
def Obligations.HaltedIsTerminalUntilReset : Prop :=
  ∀ (fmt : SnapshotFormat) (ts : List Transaction) (s t : State) (rs : List Reply) (f : Fault), s.mode = .halted f →
    (∀ tr ∈ ts, tr ≠ .reset ∧ (∀ cfg, tr ≠ .construct cfg) ∧ ∀ b, tr ≠ .restore b) →
    transactAll fmt ts s = .next (t, rs) →
    t.mode = .halted f ∧ (∀ r, Reply.step r ∈ rs → r = .err f) ∧
      t.v = s.v ∧ t.i = s.i ∧ t.stack = s.stack ∧ t.sp = s.sp ∧ t.fb = s.fb
end

