-- ==== Sys2Proof/Laws/Decode.lean ====
section
/-! SUPPORT. The fields of a word built by a format are what the format put there, and a word is made of its fields
(30_encoding R54, R55). -/

namespace Sys2Proof

theorem getLsbD_concat {n m : Nat} (x : BitVec n) (y : BitVec m) (i : Nat) :
    (x ++ y).getLsbD i = if i < m then y.getLsbD i else x.getLsbD (i - m) := by
  rw [BitVec.getLsbD_append]

theorem regNibble_toFin (n : Nibble) : regNibble n.toFin = n := rfl

theorem toFin_regNibble (r : Reg) : (regNibble r).toFin = r := rfl

/-! ### Fields of the formats -/

theorem fieldT_formatA (t : Nibble) (nnn : Addr) : fieldT (formatA t nnn) = t := by
  ext i hi
  rw [fieldT, formatA, BitVec.getElem_extractLsb']
  erw [getLsbD_concat]
  simp [BitVec.getLsbD_eq_getElem, hi]

theorem fieldNNN_formatA (t : Nibble) (nnn : Addr) : fieldNNN (formatA t nnn) = nnn := by
  ext i hi
  rw [fieldNNN, formatA, BitVec.getElem_extractLsb']
  erw [getLsbD_concat]
  simp [BitVec.getLsbD_eq_getElem, hi]

theorem fieldT_formatXB (t : Nibble) (x : Reg) (nn : Byte) : fieldT (formatXB t x nn) = t := by
  ext i hi
  rw [fieldT, formatXB, BitVec.getElem_extractLsb']
  erw [getLsbD_concat, getLsbD_concat]
  simp [BitVec.getLsbD_eq_getElem, hi, show ¬ (12 + i < 8) by omega, show ¬ (12 + i - 8 < 4) by omega,
    show 12 + i - 8 - 4 = i by omega]

theorem fieldX_formatXB (t : Nibble) (x : Reg) (nn : Byte) : fieldX (formatXB t x nn) = x := by
  have h : (formatXB t x nn).extractLsb' 8 4 = regNibble x := by
    ext i hi
    rw [formatXB, BitVec.getElem_extractLsb']
    erw [getLsbD_concat, getLsbD_concat]
    simp [BitVec.getLsbD_eq_getElem, hi]
  rw [fieldX, h, toFin_regNibble]

theorem fieldNN_formatXB (t : Nibble) (x : Reg) (nn : Byte) : fieldNN (formatXB t x nn) = nn := by
  ext i hi
  rw [fieldNN, formatXB, BitVec.getElem_extractLsb']
  erw [getLsbD_concat]
  simp [BitVec.getLsbD_eq_getElem, hi]

theorem fieldT_formatXYN (t : Nibble) (x y : Reg) (n : Nibble) : fieldT (formatXYN t x y n) = t := by
  ext i hi
  rw [fieldT, formatXYN, BitVec.getElem_extractLsb']
  erw [getLsbD_concat, getLsbD_concat, getLsbD_concat]
  simp [BitVec.getLsbD_eq_getElem, hi, show ¬ (12 + i < 4) by omega, show ¬ (12 + i - 4 < 4) by omega,
    show ¬ (12 + i - 4 - 4 < 4) by omega, show 12 + i - 4 - 4 - 4 = i by omega]

theorem fieldX_formatXYN (t : Nibble) (x y : Reg) (n : Nibble) : fieldX (formatXYN t x y n) = x := by
  have h : (formatXYN t x y n).extractLsb' 8 4 = regNibble x := by
    ext i hi
    rw [formatXYN, BitVec.getElem_extractLsb']
    erw [getLsbD_concat, getLsbD_concat, getLsbD_concat]
    simp [BitVec.getLsbD_eq_getElem, hi, show ¬ (8 + i < 4) by omega, show ¬ (8 + i - 4 < 4) by omega,
      show 8 + i - 4 - 4 = i by omega]
  rw [fieldX, h, toFin_regNibble]

theorem fieldY_formatXYN (t : Nibble) (x y : Reg) (n : Nibble) : fieldY (formatXYN t x y n) = y := by
  have h : (formatXYN t x y n).extractLsb' 4 4 = regNibble y := by
    ext i hi
    rw [formatXYN, BitVec.getElem_extractLsb']
    erw [getLsbD_concat, getLsbD_concat]
    simp [BitVec.getLsbD_eq_getElem, hi]
  rw [fieldY, h, toFin_regNibble]

theorem fieldN_formatXYN (t : Nibble) (x y : Reg) (n : Nibble) : fieldN (formatXYN t x y n) = n := by
  ext i hi
  rw [fieldN, formatXYN, BitVec.getElem_extractLsb']
  erw [getLsbD_concat]
  simp [BitVec.getLsbD_eq_getElem, hi]

/-! ### A word is made of its fields -/

theorem formatA_fields (w : Word) : formatA (fieldT w) (fieldNNN w) = w := by
  rw [formatA, fieldT, fieldNNN, BitVec.extractLsb'_append_extractLsb'_eq_extractLsb' (by rfl)]
  simp

theorem formatXB_fields (w : Word) : formatXB (fieldT w) (fieldX w) (fieldNN w) = w := by
  rw [formatXB, fieldT, fieldX, fieldNN, regNibble_toFin, BitVec.extractLsb'_append_extractLsb'_eq_extractLsb' (by rfl),
    BitVec.extractLsb'_append_extractLsb'_eq_extractLsb' (by rfl)]
  simp

theorem formatXYN_fields (w : Word) : formatXYN (fieldT w) (fieldX w) (fieldY w) (fieldN w) = w := by
  rw [formatXYN, fieldT, fieldX, fieldY, fieldN, regNibble_toFin, regNibble_toFin,
    BitVec.extractLsb'_append_extractLsb'_eq_extractLsb' (by rfl),
    BitVec.extractLsb'_append_extractLsb'_eq_extractLsb' (by rfl),
    BitVec.extractLsb'_append_extractLsb'_eq_extractLsb' (by rfl)]
  simp

/-! ### The bytes of a word -/

theorem highByte_wordOfBytes (hi lo : Byte) : highByte (wordOfBytes hi lo) = hi := by
  ext i h
  rw [highByte, wordOfBytes, BitVec.getElem_extractLsb']
  erw [getLsbD_concat]
  simp [BitVec.getLsbD_eq_getElem, h]

theorem lowByte_wordOfBytes (hi lo : Byte) : lowByte (wordOfBytes hi lo) = lo := by
  ext i h
  rw [lowByte, wordOfBytes, BitVec.getElem_extractLsb']
  erw [getLsbD_concat]
  simp [BitVec.getLsbD_eq_getElem, h]

/-! ### The formats as numbers -/

theorem formatA_eq_ofNat (t : Nibble) (nnn : Addr) : formatA t nnn = BitVec.ofNat 16 (4096 * t.toNat + nnn.toNat) := by
  apply BitVec.eq_of_toNat_eq
  have := t.isLt
  have := nnn.isLt
  rw [BitVec.toNat_ofNat, formatA, BitVec.toNat_append, ← Nat.shiftLeft_add_eq_or_of_lt nnn.isLt, Nat.shiftLeft_eq]
  omega

theorem formatXB_eq_ofNat (t : Nibble) (x : Reg) (nn : Byte) :
    formatXB t x nn = BitVec.ofNat 16 (4096 * t.toNat + 256 * x.val + nn.toNat) := by
  apply BitVec.eq_of_toNat_eq
  have := t.isLt
  have := nn.isLt
  have hx : (regNibble x).toNat = x.val := rfl
  rw [BitVec.toNat_ofNat, formatXB, BitVec.toNat_append, BitVec.toNat_append,
    ← Nat.shiftLeft_add_eq_or_of_lt nn.isLt, ← Nat.shiftLeft_add_eq_or_of_lt (regNibble x).isLt, Nat.shiftLeft_eq,
    Nat.shiftLeft_eq, hx]
  omega

theorem formatXYN_eq_ofNat (t : Nibble) (x y : Reg) (n : Nibble) :
    formatXYN t x y n = BitVec.ofNat 16 (4096 * t.toNat + 256 * x.val + 16 * y.val + n.toNat) := by
  apply BitVec.eq_of_toNat_eq
  have := t.isLt
  have := n.isLt
  have hx : (regNibble x).toNat = x.val := rfl
  have hy : (regNibble y).toNat = y.val := rfl
  rw [BitVec.toNat_ofNat, formatXYN, BitVec.toNat_append, BitVec.toNat_append, BitVec.toNat_append,
    ← Nat.shiftLeft_add_eq_or_of_lt n.isLt, ← Nat.shiftLeft_add_eq_or_of_lt (regNibble y).isLt,
    ← Nat.shiftLeft_add_eq_or_of_lt (regNibble x).isLt, Nat.shiftLeft_eq, Nat.shiftLeft_eq, Nat.shiftLeft_eq, hx, hy]
  omega

/-! ### Masks and fields -/

theorem fieldT_and (w m : Word) : fieldT (w &&& m) = fieldT w &&& fieldT m := by
  ext i hi
  simp [fieldT]

theorem fieldN_and (w m : Word) : fieldN (w &&& m) = fieldN w &&& fieldN m := by
  ext i hi
  simp [fieldN]

theorem fieldNN_and (w m : Word) : fieldNN (w &&& m) = fieldNN w &&& fieldNN m := by
  ext i hi
  simp [fieldNN]

/-- A row with mask 0xF000 selects by `T` alone (R58). -/
theorem selects_T {w b : Word} (h : (OpcodeRow.mk b 0xF000).selects w = true) : fieldT w = fieldT b := by
  have h : w &&& 0xF000 = b := by simpa [OpcodeRow.selects] using h
  rw [← h, fieldT_and, show fieldT 0xF000 = BitVec.allOnes 4 by decide, BitVec.and_allOnes]

/-- A row with mask 0xF00F selects by `T` and `N` (R58). -/
theorem selects_TN {w b : Word} (h : (OpcodeRow.mk b 0xF00F).selects w = true) :
    fieldT w = fieldT b ∧ fieldN w = fieldN b := by
  have h : w &&& 0xF00F = b := by simpa [OpcodeRow.selects] using h
  rw [← h, fieldT_and, fieldN_and, show fieldT 0xF00F = BitVec.allOnes 4 by decide,
    show fieldN 0xF00F = BitVec.allOnes 4 by decide, BitVec.and_allOnes, BitVec.and_allOnes]
  exact ⟨rfl, rfl⟩

/-- A row with mask 0xF0FF selects by `T` and `NN` (R58). -/
theorem selects_TNN {w b : Word} (h : (OpcodeRow.mk b 0xF0FF).selects w = true) :
    fieldT w = fieldT b ∧ fieldNN w = fieldNN b := by
  have h : w &&& 0xF0FF = b := by simpa [OpcodeRow.selects] using h
  rw [← h, fieldT_and, fieldNN_and, show fieldT 0xF0FF = BitVec.allOnes 4 by decide,
    show fieldNN 0xF0FF = BitVec.allOnes 8 by decide, BitVec.and_allOnes, BitVec.and_allOnes]
  exact ⟨rfl, rfl⟩

/-- A row with mask 0xFFFF selects one word (R58). -/
theorem selects_all {w b : Word} (h : (OpcodeRow.mk b 0xFFFF).selects w = true) : w = b := by
  have h : w &&& 0xFFFF = b := by simpa [OpcodeRow.selects] using h
  rwa [show (0xFFFF : Word) = BitVec.allOnes 16 by decide, BitVec.and_allOnes] at h

/-! ### What a mask leaves of a format -/

theorem concat_and {n m : Nat} (x x' : BitVec n) (y y' : BitVec m) :
    (x ++ y) &&& (x' ++ y') = (x &&& x') ++ (y &&& y') := BitVec.and_append

theorem formatA_and (t : Nibble) (nnn : Addr) : formatA t nnn &&& 0xF000 = formatA t 0 := by
  have h := concat_and t 0xF#4 nnn 0#12
  rw [show (0xF#4 : BitVec 4) = BitVec.allOnes 4 by decide, BitVec.and_allOnes, BitVec.and_zero] at h
  exact h

theorem formatXB_and_T (t : Nibble) (x : Reg) (nn : Byte) : formatXB t x nn &&& 0xF000 = formatXB t 0 0 := by
  have h := concat_and (t ++ regNibble x) (0xF#4 ++ 0#4) nn 0#8
  rw [concat_and t 0xF#4 (regNibble x) 0#4] at h
  rw [show (0xF#4 : BitVec 4) = BitVec.allOnes 4 by decide, BitVec.and_allOnes, BitVec.and_zero, BitVec.and_zero] at h
  exact h

theorem formatXB_and_TNN (t : Nibble) (x : Reg) (nn : Byte) : formatXB t x nn &&& 0xF0FF = formatXB t 0 nn := by
  have h := concat_and (t ++ regNibble x) (0xF#4 ++ 0#4) nn 0xFF#8
  rw [concat_and t 0xF#4 (regNibble x) 0#4] at h
  rw [show (0xF#4 : BitVec 4) = BitVec.allOnes 4 by decide, BitVec.and_allOnes, BitVec.and_zero, show (0xFF#8 : BitVec 8) = BitVec.allOnes 8 by decide,
    BitVec.and_allOnes] at h
  exact h

theorem formatXYN_and_TN (t : Nibble) (x y : Reg) (n : Nibble) : formatXYN t x y n &&& 0xF00F = formatXYN t 0 0 n := by
  have h := concat_and (t ++ regNibble x ++ regNibble y) (0xF#4 ++ 0#4 ++ 0#4) n 0xF#4
  rw [concat_and (t ++ regNibble x) (0xF#4 ++ 0#4) (regNibble y) 0#4, concat_and t 0xF#4 (regNibble x) 0#4] at h
  rw [show (0xF#4 : BitVec 4) = BitVec.allOnes 4 by decide, BitVec.and_allOnes, BitVec.and_zero,
    BitVec.and_zero, BitVec.and_allOnes] at h
  exact h

theorem formatXYN_and_T (t : Nibble) (x y : Reg) (n : Nibble) : formatXYN t x y n &&& 0xF000 = formatXYN t 0 0 0 := by
  have h := concat_and (t ++ regNibble x ++ regNibble y) (0xF#4 ++ 0#4 ++ 0#4) n 0x0#4
  rw [concat_and (t ++ regNibble x) (0xF#4 ++ 0#4) (regNibble y) 0#4, concat_and t 0xF#4 (regNibble x) 0#4] at h
  rw [show (0xF#4 : BitVec 4) = BitVec.allOnes 4 by decide, BitVec.and_allOnes, BitVec.and_zero,
    BitVec.and_zero, BitVec.and_zero] at h
  exact h

/-- The row's mask leaves the row's bits of the word. -/
theorem selects_of {w b m : Word} (h : w &&& m = b) : (OpcodeRow.mk b m).selects w = true := by
  simp [OpcodeRow.selects, h]

end Sys2Proof
end

