-- ==== Sys2Proof/Laws/State.lean ====
section
/-! SUPPORT. Beside State: what each named update leaves of each field, true by unfolding, for simp. -/

namespace Sys2Proof.Machine

open Sys2Proof

namespace State

variable (s : State)

@[simp] theorem setReg_cfg (x : Reg) (b : Byte) : (s.setReg x b).cfg = s.cfg := rfl
@[simp] theorem setReg_mem (x : Reg) (b : Byte) : (s.setReg x b).mem = s.mem := rfl
@[simp] theorem setReg_v (x : Reg) (b : Byte) : (s.setReg x b).v = s.v.set x b := rfl
@[simp] theorem setReg_i (x : Reg) (b : Byte) : (s.setReg x b).i = s.i := rfl
@[simp] theorem setReg_pc (x : Reg) (b : Byte) : (s.setReg x b).pc = s.pc := rfl
@[simp] theorem setReg_stack (x : Reg) (b : Byte) : (s.setReg x b).stack = s.stack := rfl
@[simp] theorem setReg_sp (x : Reg) (b : Byte) : (s.setReg x b).sp = s.sp := rfl
@[simp] theorem setReg_dt (x : Reg) (b : Byte) : (s.setReg x b).dt = s.dt := rfl
@[simp] theorem setReg_st (x : Reg) (b : Byte) : (s.setReg x b).st = s.st := rfl
@[simp] theorem setReg_fb (x : Reg) (b : Byte) : (s.setReg x b).fb = s.fb := rfl
@[simp] theorem setReg_keys (x : Reg) (b : Byte) : (s.setReg x b).keys = s.keys := rfl
@[simp] theorem setReg_keyEdge (x : Reg) (b : Byte) : (s.setReg x b).keyEdge = s.keyEdge := rfl
@[simp] theorem setReg_mode (x : Reg) (b : Byte) : (s.setReg x b).mode = s.mode := rfl
@[simp] theorem setReg_draws (x : Reg) (b : Byte) : (s.setReg x b).draws = s.draws := rfl
@[simp] theorem setReg_result (x : Reg) (b : Byte) : (s.setReg x b).result = s.result := rfl

@[simp] theorem setI_cfg (a : Word) : (s.setI a).cfg = s.cfg := rfl
@[simp] theorem setI_mem (a : Word) : (s.setI a).mem = s.mem := rfl
@[simp] theorem setI_v (a : Word) : (s.setI a).v = s.v := rfl
@[simp] theorem setI_i (a : Word) : (s.setI a).i = a := rfl
@[simp] theorem setI_pc (a : Word) : (s.setI a).pc = s.pc := rfl
@[simp] theorem setI_stack (a : Word) : (s.setI a).stack = s.stack := rfl
@[simp] theorem setI_sp (a : Word) : (s.setI a).sp = s.sp := rfl
@[simp] theorem setI_dt (a : Word) : (s.setI a).dt = s.dt := rfl
@[simp] theorem setI_st (a : Word) : (s.setI a).st = s.st := rfl
@[simp] theorem setI_fb (a : Word) : (s.setI a).fb = s.fb := rfl
@[simp] theorem setI_keys (a : Word) : (s.setI a).keys = s.keys := rfl
@[simp] theorem setI_keyEdge (a : Word) : (s.setI a).keyEdge = s.keyEdge := rfl
@[simp] theorem setI_mode (a : Word) : (s.setI a).mode = s.mode := rfl
@[simp] theorem setI_draws (a : Word) : (s.setI a).draws = s.draws := rfl
@[simp] theorem setI_result (a : Word) : (s.setI a).result = s.result := rfl

@[simp] theorem setDt_cfg (b : Byte) : (s.setDt b).cfg = s.cfg := rfl
@[simp] theorem setDt_mem (b : Byte) : (s.setDt b).mem = s.mem := rfl
@[simp] theorem setDt_v (b : Byte) : (s.setDt b).v = s.v := rfl
@[simp] theorem setDt_i (b : Byte) : (s.setDt b).i = s.i := rfl
@[simp] theorem setDt_pc (b : Byte) : (s.setDt b).pc = s.pc := rfl
@[simp] theorem setDt_stack (b : Byte) : (s.setDt b).stack = s.stack := rfl
@[simp] theorem setDt_sp (b : Byte) : (s.setDt b).sp = s.sp := rfl
@[simp] theorem setDt_dt (b : Byte) : (s.setDt b).dt = b := rfl
@[simp] theorem setDt_st (b : Byte) : (s.setDt b).st = s.st := rfl
@[simp] theorem setDt_fb (b : Byte) : (s.setDt b).fb = s.fb := rfl
@[simp] theorem setDt_keys (b : Byte) : (s.setDt b).keys = s.keys := rfl
@[simp] theorem setDt_keyEdge (b : Byte) : (s.setDt b).keyEdge = s.keyEdge := rfl
@[simp] theorem setDt_mode (b : Byte) : (s.setDt b).mode = s.mode := rfl
@[simp] theorem setDt_draws (b : Byte) : (s.setDt b).draws = s.draws := rfl
@[simp] theorem setDt_result (b : Byte) : (s.setDt b).result = s.result := rfl

@[simp] theorem setSt_cfg (b : Byte) : (s.setSt b).cfg = s.cfg := rfl
@[simp] theorem setSt_mem (b : Byte) : (s.setSt b).mem = s.mem := rfl
@[simp] theorem setSt_v (b : Byte) : (s.setSt b).v = s.v := rfl
@[simp] theorem setSt_i (b : Byte) : (s.setSt b).i = s.i := rfl
@[simp] theorem setSt_pc (b : Byte) : (s.setSt b).pc = s.pc := rfl
@[simp] theorem setSt_stack (b : Byte) : (s.setSt b).stack = s.stack := rfl
@[simp] theorem setSt_sp (b : Byte) : (s.setSt b).sp = s.sp := rfl
@[simp] theorem setSt_dt (b : Byte) : (s.setSt b).dt = s.dt := rfl
@[simp] theorem setSt_st (b : Byte) : (s.setSt b).st = b := rfl
@[simp] theorem setSt_fb (b : Byte) : (s.setSt b).fb = s.fb := rfl
@[simp] theorem setSt_keys (b : Byte) : (s.setSt b).keys = s.keys := rfl
@[simp] theorem setSt_keyEdge (b : Byte) : (s.setSt b).keyEdge = s.keyEdge := rfl
@[simp] theorem setSt_mode (b : Byte) : (s.setSt b).mode = s.mode := rfl
@[simp] theorem setSt_draws (b : Byte) : (s.setSt b).draws = s.draws := rfl
@[simp] theorem setSt_result (b : Byte) : (s.setSt b).result = s.result := rfl

@[simp] theorem setFb_cfg (fb : FrameBuffer) : (s.setFb fb).cfg = s.cfg := rfl
@[simp] theorem setFb_mem (fb : FrameBuffer) : (s.setFb fb).mem = s.mem := rfl
@[simp] theorem setFb_v (fb : FrameBuffer) : (s.setFb fb).v = s.v := rfl
@[simp] theorem setFb_i (fb : FrameBuffer) : (s.setFb fb).i = s.i := rfl
@[simp] theorem setFb_pc (fb : FrameBuffer) : (s.setFb fb).pc = s.pc := rfl
@[simp] theorem setFb_stack (fb : FrameBuffer) : (s.setFb fb).stack = s.stack := rfl
@[simp] theorem setFb_sp (fb : FrameBuffer) : (s.setFb fb).sp = s.sp := rfl
@[simp] theorem setFb_dt (fb : FrameBuffer) : (s.setFb fb).dt = s.dt := rfl
@[simp] theorem setFb_st (fb : FrameBuffer) : (s.setFb fb).st = s.st := rfl
@[simp] theorem setFb_fb (fb : FrameBuffer) : (s.setFb fb).fb = fb := rfl
@[simp] theorem setFb_keys (fb : FrameBuffer) : (s.setFb fb).keys = s.keys := rfl
@[simp] theorem setFb_keyEdge (fb : FrameBuffer) : (s.setFb fb).keyEdge = s.keyEdge := rfl
@[simp] theorem setFb_mode (fb : FrameBuffer) : (s.setFb fb).mode = s.mode := rfl
@[simp] theorem setFb_draws (fb : FrameBuffer) : (s.setFb fb).draws = s.draws := rfl
@[simp] theorem setFb_result (fb : FrameBuffer) : (s.setFb fb).result = s.result := rfl

@[simp] theorem setMode_cfg (m : Mode) : (s.setMode m).cfg = s.cfg := rfl
@[simp] theorem setMode_mem (m : Mode) : (s.setMode m).mem = s.mem := rfl
@[simp] theorem setMode_v (m : Mode) : (s.setMode m).v = s.v := rfl
@[simp] theorem setMode_i (m : Mode) : (s.setMode m).i = s.i := rfl
@[simp] theorem setMode_pc (m : Mode) : (s.setMode m).pc = s.pc := rfl
@[simp] theorem setMode_stack (m : Mode) : (s.setMode m).stack = s.stack := rfl
@[simp] theorem setMode_sp (m : Mode) : (s.setMode m).sp = s.sp := rfl
@[simp] theorem setMode_dt (m : Mode) : (s.setMode m).dt = s.dt := rfl
@[simp] theorem setMode_st (m : Mode) : (s.setMode m).st = s.st := rfl
@[simp] theorem setMode_fb (m : Mode) : (s.setMode m).fb = s.fb := rfl
@[simp] theorem setMode_keys (m : Mode) : (s.setMode m).keys = s.keys := rfl
@[simp] theorem setMode_keyEdge (m : Mode) : (s.setMode m).keyEdge = s.keyEdge := rfl
@[simp] theorem setMode_mode (m : Mode) : (s.setMode m).mode = m := rfl
@[simp] theorem setMode_draws (m : Mode) : (s.setMode m).draws = s.draws := rfl
@[simp] theorem setMode_result (m : Mode) : (s.setMode m).result = s.result := rfl

@[simp] theorem clearLatch_cfg : (s.clearLatch).cfg = s.cfg := rfl
@[simp] theorem clearLatch_mem : (s.clearLatch).mem = s.mem := rfl
@[simp] theorem clearLatch_v : (s.clearLatch).v = s.v := rfl
@[simp] theorem clearLatch_i : (s.clearLatch).i = s.i := rfl
@[simp] theorem clearLatch_pc : (s.clearLatch).pc = s.pc := rfl
@[simp] theorem clearLatch_stack : (s.clearLatch).stack = s.stack := rfl
@[simp] theorem clearLatch_sp : (s.clearLatch).sp = s.sp := rfl
@[simp] theorem clearLatch_dt : (s.clearLatch).dt = s.dt := rfl
@[simp] theorem clearLatch_st : (s.clearLatch).st = s.st := rfl
@[simp] theorem clearLatch_fb : (s.clearLatch).fb = s.fb := rfl
@[simp] theorem clearLatch_keys : (s.clearLatch).keys = s.keys := rfl
@[simp] theorem clearLatch_keyEdge : (s.clearLatch).keyEdge = Vector.replicate 16 false := rfl
@[simp] theorem clearLatch_mode : (s.clearLatch).mode = s.mode := rfl
@[simp] theorem clearLatch_draws : (s.clearLatch).draws = s.draws := rfl
@[simp] theorem clearLatch_result : (s.clearLatch).result = s.result := rfl

@[simp] theorem countDraw_cfg : (s.countDraw).cfg = s.cfg := rfl
@[simp] theorem countDraw_mem : (s.countDraw).mem = s.mem := rfl
@[simp] theorem countDraw_v : (s.countDraw).v = s.v := rfl
@[simp] theorem countDraw_i : (s.countDraw).i = s.i := rfl
@[simp] theorem countDraw_pc : (s.countDraw).pc = s.pc := rfl
@[simp] theorem countDraw_stack : (s.countDraw).stack = s.stack := rfl
@[simp] theorem countDraw_sp : (s.countDraw).sp = s.sp := rfl
@[simp] theorem countDraw_dt : (s.countDraw).dt = s.dt := rfl
@[simp] theorem countDraw_st : (s.countDraw).st = s.st := rfl
@[simp] theorem countDraw_fb : (s.countDraw).fb = s.fb := rfl
@[simp] theorem countDraw_keys : (s.countDraw).keys = s.keys := rfl
@[simp] theorem countDraw_keyEdge : (s.countDraw).keyEdge = s.keyEdge := rfl
@[simp] theorem countDraw_mode : (s.countDraw).mode = s.mode := rfl
@[simp] theorem countDraw_draws : (s.countDraw).draws = s.draws + 1 := rfl
@[simp] theorem countDraw_result : (s.countDraw).result = s.result := rfl

@[simp] theorem setPc_cfg (t : Addr) : (s.setPc t).cfg = s.cfg := rfl
@[simp] theorem setPc_mem (t : Addr) : (s.setPc t).mem = s.mem := rfl
@[simp] theorem setPc_v (t : Addr) : (s.setPc t).v = s.v := rfl
@[simp] theorem setPc_i (t : Addr) : (s.setPc t).i = s.i := rfl
@[simp] theorem setPc_pc (t : Addr) : (s.setPc t).pc = t := rfl
@[simp] theorem setPc_stack (t : Addr) : (s.setPc t).stack = s.stack := rfl
@[simp] theorem setPc_sp (t : Addr) : (s.setPc t).sp = s.sp := rfl
@[simp] theorem setPc_dt (t : Addr) : (s.setPc t).dt = s.dt := rfl
@[simp] theorem setPc_st (t : Addr) : (s.setPc t).st = s.st := rfl
@[simp] theorem setPc_fb (t : Addr) : (s.setPc t).fb = s.fb := rfl
@[simp] theorem setPc_keys (t : Addr) : (s.setPc t).keys = s.keys := rfl
@[simp] theorem setPc_keyEdge (t : Addr) : (s.setPc t).keyEdge = s.keyEdge := rfl
@[simp] theorem setPc_mode (t : Addr) : (s.setPc t).mode = s.mode := rfl
@[simp] theorem setPc_draws (t : Addr) : (s.setPc t).draws = s.draws := rfl
@[simp] theorem setPc_result (t : Addr) : (s.setPc t).result = s.result := rfl

@[simp] theorem advancePc_cfg : (s.advancePc).cfg = s.cfg := rfl
@[simp] theorem advancePc_mem : (s.advancePc).mem = s.mem := rfl
@[simp] theorem advancePc_v : (s.advancePc).v = s.v := rfl
@[simp] theorem advancePc_i : (s.advancePc).i = s.i := rfl
@[simp] theorem advancePc_pc : (s.advancePc).pc = s.pc + 2 := rfl
@[simp] theorem advancePc_stack : (s.advancePc).stack = s.stack := rfl
@[simp] theorem advancePc_sp : (s.advancePc).sp = s.sp := rfl
@[simp] theorem advancePc_dt : (s.advancePc).dt = s.dt := rfl
@[simp] theorem advancePc_st : (s.advancePc).st = s.st := rfl
@[simp] theorem advancePc_fb : (s.advancePc).fb = s.fb := rfl
@[simp] theorem advancePc_keys : (s.advancePc).keys = s.keys := rfl
@[simp] theorem advancePc_keyEdge : (s.advancePc).keyEdge = s.keyEdge := rfl
@[simp] theorem advancePc_mode : (s.advancePc).mode = s.mode := rfl
@[simp] theorem advancePc_draws : (s.advancePc).draws = s.draws := rfl
@[simp] theorem advancePc_result : (s.advancePc).result = s.result := rfl

@[simp] theorem returning_cfg (r : StepResult) : (s.returning r).cfg = s.cfg := rfl
@[simp] theorem returning_mem (r : StepResult) : (s.returning r).mem = s.mem := rfl
@[simp] theorem returning_v (r : StepResult) : (s.returning r).v = s.v := rfl
@[simp] theorem returning_i (r : StepResult) : (s.returning r).i = s.i := rfl
@[simp] theorem returning_pc (r : StepResult) : (s.returning r).pc = s.pc := rfl
@[simp] theorem returning_stack (r : StepResult) : (s.returning r).stack = s.stack := rfl
@[simp] theorem returning_sp (r : StepResult) : (s.returning r).sp = s.sp := rfl
@[simp] theorem returning_dt (r : StepResult) : (s.returning r).dt = s.dt := rfl
@[simp] theorem returning_st (r : StepResult) : (s.returning r).st = s.st := rfl
@[simp] theorem returning_fb (r : StepResult) : (s.returning r).fb = s.fb := rfl
@[simp] theorem returning_keys (r : StepResult) : (s.returning r).keys = s.keys := rfl
@[simp] theorem returning_keyEdge (r : StepResult) : (s.returning r).keyEdge = s.keyEdge := rfl
@[simp] theorem returning_mode (r : StepResult) : (s.returning r).mode = s.mode := rfl
@[simp] theorem returning_draws (r : StepResult) : (s.returning r).draws = s.draws := rfl
@[simp] theorem returning_result (r : StepResult) : (s.returning r).result = r := rfl

@[simp] theorem writeByte_cfg (a : Nat) (b : Byte) : (s.writeByte a b).cfg = s.cfg := rfl
@[simp] theorem writeByte_mem (a : Nat) (b : Byte) : (s.writeByte a b).mem = Memory.write s.cfg s.mem (a % memSize) b := rfl
@[simp] theorem writeByte_v (a : Nat) (b : Byte) : (s.writeByte a b).v = s.v := rfl
@[simp] theorem writeByte_i (a : Nat) (b : Byte) : (s.writeByte a b).i = s.i := rfl
@[simp] theorem writeByte_pc (a : Nat) (b : Byte) : (s.writeByte a b).pc = s.pc := rfl
@[simp] theorem writeByte_stack (a : Nat) (b : Byte) : (s.writeByte a b).stack = s.stack := rfl
@[simp] theorem writeByte_sp (a : Nat) (b : Byte) : (s.writeByte a b).sp = s.sp := rfl
@[simp] theorem writeByte_dt (a : Nat) (b : Byte) : (s.writeByte a b).dt = s.dt := rfl
@[simp] theorem writeByte_st (a : Nat) (b : Byte) : (s.writeByte a b).st = s.st := rfl
@[simp] theorem writeByte_fb (a : Nat) (b : Byte) : (s.writeByte a b).fb = s.fb := rfl
@[simp] theorem writeByte_keys (a : Nat) (b : Byte) : (s.writeByte a b).keys = s.keys := rfl
@[simp] theorem writeByte_keyEdge (a : Nat) (b : Byte) : (s.writeByte a b).keyEdge = s.keyEdge := rfl
@[simp] theorem writeByte_mode (a : Nat) (b : Byte) : (s.writeByte a b).mode = s.mode := rfl
@[simp] theorem writeByte_draws (a : Nat) (b : Byte) : (s.writeByte a b).draws = s.draws := rfl
@[simp] theorem writeByte_result (a : Nat) (b : Byte) : (s.writeByte a b).result = s.result := rfl

@[simp] theorem setFlag_cfg (f : Bool) : (s.setFlag f).cfg = s.cfg := rfl
@[simp] theorem setFlag_mem (f : Bool) : (s.setFlag f).mem = s.mem := rfl
@[simp] theorem setFlag_v (f : Bool) : (s.setFlag f).v = s.v.set 0xF (flagByte f) := rfl
@[simp] theorem setFlag_i (f : Bool) : (s.setFlag f).i = s.i := rfl
@[simp] theorem setFlag_pc (f : Bool) : (s.setFlag f).pc = s.pc := rfl
@[simp] theorem setFlag_stack (f : Bool) : (s.setFlag f).stack = s.stack := rfl
@[simp] theorem setFlag_sp (f : Bool) : (s.setFlag f).sp = s.sp := rfl
@[simp] theorem setFlag_dt (f : Bool) : (s.setFlag f).dt = s.dt := rfl
@[simp] theorem setFlag_st (f : Bool) : (s.setFlag f).st = s.st := rfl
@[simp] theorem setFlag_fb (f : Bool) : (s.setFlag f).fb = s.fb := rfl
@[simp] theorem setFlag_keys (f : Bool) : (s.setFlag f).keys = s.keys := rfl
@[simp] theorem setFlag_keyEdge (f : Bool) : (s.setFlag f).keyEdge = s.keyEdge := rfl
@[simp] theorem setFlag_mode (f : Bool) : (s.setFlag f).mode = s.mode := rfl
@[simp] theorem setFlag_draws (f : Bool) : (s.setFlag f).draws = s.draws := rfl
@[simp] theorem setFlag_result (f : Bool) : (s.setFlag f).result = s.result := rfl

@[simp] theorem setRegAndFlag_cfg (x : Reg) (b : Byte) (f : Bool) : (s.setRegAndFlag x b f).cfg = s.cfg := rfl
@[simp] theorem setRegAndFlag_mem (x : Reg) (b : Byte) (f : Bool) : (s.setRegAndFlag x b f).mem = s.mem := rfl
@[simp] theorem setRegAndFlag_v (x : Reg) (b : Byte) (f : Bool) : (s.setRegAndFlag x b f).v = (s.v.set x b).set 0xF (flagByte f) := rfl
@[simp] theorem setRegAndFlag_i (x : Reg) (b : Byte) (f : Bool) : (s.setRegAndFlag x b f).i = s.i := rfl
@[simp] theorem setRegAndFlag_pc (x : Reg) (b : Byte) (f : Bool) : (s.setRegAndFlag x b f).pc = s.pc := rfl
@[simp] theorem setRegAndFlag_stack (x : Reg) (b : Byte) (f : Bool) : (s.setRegAndFlag x b f).stack = s.stack := rfl
@[simp] theorem setRegAndFlag_sp (x : Reg) (b : Byte) (f : Bool) : (s.setRegAndFlag x b f).sp = s.sp := rfl
@[simp] theorem setRegAndFlag_dt (x : Reg) (b : Byte) (f : Bool) : (s.setRegAndFlag x b f).dt = s.dt := rfl
@[simp] theorem setRegAndFlag_st (x : Reg) (b : Byte) (f : Bool) : (s.setRegAndFlag x b f).st = s.st := rfl
@[simp] theorem setRegAndFlag_fb (x : Reg) (b : Byte) (f : Bool) : (s.setRegAndFlag x b f).fb = s.fb := rfl
@[simp] theorem setRegAndFlag_keys (x : Reg) (b : Byte) (f : Bool) : (s.setRegAndFlag x b f).keys = s.keys := rfl
@[simp] theorem setRegAndFlag_keyEdge (x : Reg) (b : Byte) (f : Bool) : (s.setRegAndFlag x b f).keyEdge = s.keyEdge := rfl
@[simp] theorem setRegAndFlag_mode (x : Reg) (b : Byte) (f : Bool) : (s.setRegAndFlag x b f).mode = s.mode := rfl
@[simp] theorem setRegAndFlag_draws (x : Reg) (b : Byte) (f : Bool) : (s.setRegAndFlag x b f).draws = s.draws := rfl
@[simp] theorem setRegAndFlag_result (x : Reg) (b : Byte) (f : Bool) : (s.setRegAndFlag x b f).result = s.result := rfl

@[simp] theorem setReg_readByte (x : Reg) (b : Byte) (a' : Nat) : (s.setReg x b).readByte a' = s.readByte a' := rfl
@[simp] theorem setI_readByte (a : Word) (a' : Nat) : (s.setI a).readByte a' = s.readByte a' := rfl
@[simp] theorem setDt_readByte (b : Byte) (a' : Nat) : (s.setDt b).readByte a' = s.readByte a' := rfl
@[simp] theorem setSt_readByte (b : Byte) (a' : Nat) : (s.setSt b).readByte a' = s.readByte a' := rfl
@[simp] theorem setFb_readByte (fb : FrameBuffer) (a' : Nat) : (s.setFb fb).readByte a' = s.readByte a' := rfl
@[simp] theorem setMode_readByte (m : Mode) (a' : Nat) : (s.setMode m).readByte a' = s.readByte a' := rfl
@[simp] theorem clearLatch_readByte (a' : Nat) : (s.clearLatch).readByte a' = s.readByte a' := rfl
@[simp] theorem countDraw_readByte (a' : Nat) : (s.countDraw).readByte a' = s.readByte a' := rfl
@[simp] theorem setPc_readByte (t : Addr) (a' : Nat) : (s.setPc t).readByte a' = s.readByte a' := rfl
@[simp] theorem advancePc_readByte (a' : Nat) : (s.advancePc).readByte a' = s.readByte a' := rfl
@[simp] theorem returning_readByte (r : StepResult) (a' : Nat) : (s.returning r).readByte a' = s.readByte a' := rfl
@[simp] theorem setFlag_readByte (f : Bool) (a' : Nat) : (s.setFlag f).readByte a' = s.readByte a' := rfl
@[simp] theorem setRegAndFlag_readByte (x : Reg) (b : Byte) (f : Bool) (a' : Nat) : (s.setRegAndFlag x b f).readByte a' = s.readByte a' := rfl

@[simp] theorem setI_getReg (a : Word) (z : Reg) : (s.setI a).getReg z = s.getReg z := rfl
@[simp] theorem setDt_getReg (b : Byte) (z : Reg) : (s.setDt b).getReg z = s.getReg z := rfl
@[simp] theorem setSt_getReg (b : Byte) (z : Reg) : (s.setSt b).getReg z = s.getReg z := rfl
@[simp] theorem setFb_getReg (fb : FrameBuffer) (z : Reg) : (s.setFb fb).getReg z = s.getReg z := rfl
@[simp] theorem setMode_getReg (m : Mode) (z : Reg) : (s.setMode m).getReg z = s.getReg z := rfl
@[simp] theorem clearLatch_getReg (z : Reg) : (s.clearLatch).getReg z = s.getReg z := rfl
@[simp] theorem countDraw_getReg (z : Reg) : (s.countDraw).getReg z = s.getReg z := rfl
@[simp] theorem setPc_getReg (t : Addr) (z : Reg) : (s.setPc t).getReg z = s.getReg z := rfl
@[simp] theorem advancePc_getReg (z : Reg) : (s.advancePc).getReg z = s.getReg z := rfl
@[simp] theorem returning_getReg (r : StepResult) (z : Reg) : (s.returning r).getReg z = s.getReg z := rfl
@[simp] theorem writeByte_getReg (a : Nat) (b : Byte) (z : Reg) : (s.writeByte a b).getReg z = s.getReg z := rfl

/-- Reading a register after writing one (R15). -/
theorem getReg_setReg (x z : Reg) (b : Byte) : (s.setReg x b).getReg z = if z = x then b else s.getReg z := by
  simp only [getReg, setReg, Fin.getElem_fin, Vector.getElem_set, Fin.val_inj, eq_comm (a := x)]

end State

end Sys2Proof.Machine
end

