-- ==== Sys2Proof/Laws/Memory.lean ====
section
/-! SUPPORT. The MemoryBank: read after write, every memory operation keeps the canonical form, canonical memories are
determined by what they read as, what `storeBytes` stores, what a fetch reads, and memory at its zero and font state. -/

namespace Sys2Proof.Machine

open Sys2Proof

/-! ### Reading after writing -/

theorem Memory.lookup_insert (a b : Nat) (v : Byte) (m : List Host.Cell) :
    Memory.lookup (Memory.insert a v m) b = if b = a then some v else Memory.lookup m b := by
  induction m with
  | nil => simp [Memory.insert, Memory.lookup, eq_comm]
  | cons c m ih =>
    obtain ⟨d, w⟩ := c
    simp only [Memory.insert]
    split_ifs with h1 h2 <;> simp only [Memory.lookup, ih] <;> split_ifs <;> first | rfl | omega

theorem Memory.lookup_erase (a b : Nat) (m : List Host.Cell) :
    Memory.lookup (Memory.erase a m) b = if b = a then none else Memory.lookup m b := by
  induction m with
  | nil => simp [Memory.erase, Memory.lookup]
  | cons c m ih =>
    obtain ⟨d, w⟩ := c
    simp only [Memory.erase, List.filter_cons] at ih ⊢
    by_cases h : d = a
    · subst h
      simp only [bne_self_eq_false, Bool.false_eq_true, if_false, ih, Memory.lookup]
      split_ifs <;> first | rfl | omega
    · simp only [bne_iff_ne, ne_eq, h, not_false_eq_true, if_true, Memory.lookup, ih]
      split_ifs <;> first | rfl | omega

/-- A read after a write: the byte written at its address, the old byte anywhere else (R37, R38). -/
theorem Memory.read_write (cfg : Config) (m : List Host.Cell) (a b : Nat) (v : Byte) :
    Memory.read cfg (Memory.write cfg m a v) b = if b = a then v else Memory.read cfg m b := by
  by_cases hv : v = resetByte cfg a
  · simp only [Memory.read, Memory.write, if_pos hv, Memory.lookup_erase]
    split_ifs with h <;> simp [h, hv]
  · simp only [Memory.read, Memory.write, if_neg hv, Memory.lookup_insert]
    split_ifs <;> rfl

/-! ### The canonical form -/

theorem Memory.wfFrom_cons (cfg : Config) (lo a : Nat) (v : Byte) (m : List Host.Cell) :
    Memory.wfFrom cfg lo ((a, v) :: m) = true ↔
      lo ≤ a ∧ a < memSize ∧ v ≠ resetByte cfg a ∧ Memory.wfFrom cfg (a + 1) m = true := by
  simp [Memory.wfFrom, and_assoc]

theorem Memory.wfFrom_mono {cfg : Config} {lo lo' : Nat} {m : List Host.Cell} (h : lo' ≤ lo)
    (hm : Memory.wfFrom cfg lo m = true) : Memory.wfFrom cfg lo' m = true := by
  cases m with
  | nil => rfl
  | cons c m =>
    obtain ⟨a, v⟩ := c
    rw [Memory.wfFrom_cons] at hm ⊢
    exact ⟨h.trans hm.1, hm.2⟩

theorem Memory.insert_wfFrom {cfg : Config} {a : Nat} {v : Byte} (ha : a < memSize) (hv : v ≠ resetByte cfg a) :
    ∀ {lo : Nat} {m : List Host.Cell}, lo ≤ a → Memory.wfFrom cfg lo m = true →
      Memory.wfFrom cfg lo (Memory.insert a v m) = true
  | lo, [], hlo, _ => by simp [Memory.insert, hlo, ha, hv, Memory.wfFrom]
  | lo, (b, w) :: m, hlo, hm => by
    rw [Memory.wfFrom_cons] at hm
    obtain ⟨h1, h2, h3, h4⟩ := hm
    simp only [Memory.insert]
    split_ifs with hab heq
    · rw [Memory.wfFrom_cons, Memory.wfFrom_cons]
      exact ⟨hlo, ha, hv, hab, h2, h3, h4⟩
    · subst heq
      rw [Memory.wfFrom_cons]
      exact ⟨hlo, ha, hv, h4⟩
    · rw [Memory.wfFrom_cons]
      exact ⟨h1, h2, h3, Memory.insert_wfFrom ha hv (by omega) h4⟩

theorem Memory.erase_wfFrom {cfg : Config} (a : Nat) :
    ∀ {lo : Nat} {m : List Host.Cell}, Memory.wfFrom cfg lo m = true → Memory.wfFrom cfg lo (Memory.erase a m) = true
  | _, [], _ => rfl
  | lo, (b, w) :: m, hm => by
    rw [Memory.wfFrom_cons] at hm
    obtain ⟨h1, h2, h3, h4⟩ := hm
    have ih := Memory.erase_wfFrom a h4
    simp only [Memory.erase, List.filter_cons] at ih ⊢
    split_ifs
    · rw [Memory.wfFrom_cons]
      exact ⟨h1, h2, h3, ih⟩
    · exact Memory.wfFrom_mono (by omega) ih

/-- Every write keeps the canonical form. -/
theorem Memory.write_wf {cfg : Config} {m : List Host.Cell} {a : Nat} (v : Byte) (ha : a < memSize)
    (hm : Memory.wf cfg m = true) : Memory.wf cfg (Memory.write cfg m a v) = true := by
  unfold Memory.write
  split_ifs with h
  · exact Memory.erase_wfFrom a hm
  · exact Memory.insert_wfFrom ha h (Nat.zero_le a) hm

/-- Below its first address, canonical memory lists nothing. -/
theorem Memory.lookup_below {cfg : Config} {lo a : Nat} {m : List Host.Cell} (h : Memory.wfFrom cfg lo m = true)
    (ha : a < lo) : Memory.lookup m a = none := by
  induction m generalizing lo with
  | nil => rfl
  | cons c m ih =>
    obtain ⟨b, w⟩ := c
    rw [Memory.wfFrom_cons] at h
    simp only [Memory.lookup]
    rw [if_neg (by omega)]
    exact ih h.2.2.2 (by omega)

/-- What canonical memory lists for an address differs from what the address reads as unlisted. -/
theorem Memory.lookup_ne_reset {cfg : Config} {lo a : Nat} {m : List Host.Cell} {v : Byte}
    (h : Memory.wfFrom cfg lo m = true) (hv : Memory.lookup m a = some v) : a < memSize ∧ v ≠ resetByte cfg a := by
  induction m generalizing lo with
  | nil => simp [Memory.lookup] at hv
  | cons c m ih =>
    obtain ⟨b, w⟩ := c
    rw [Memory.wfFrom_cons] at h
    simp only [Memory.lookup] at hv
    split_ifs at hv with hb
    · subst hb
      cases hv
      exact ⟨h.2.1, h.2.2.1⟩
    · exact ih h.2.2.2 hv

/-- In canonical memory what is listed is determined by what is read. -/
theorem Memory.lookup_eq_of_read_eq {cfg : Config} {l l' a : Nat} {m m' : List Host.Cell}
    (h : Memory.wfFrom cfg l m = true) (h' : Memory.wfFrom cfg l' m' = true)
    (e : Memory.read cfg m a = Memory.read cfg m' a) : Memory.lookup m a = Memory.lookup m' a := by
  simp only [Memory.read] at e
  cases hm : Memory.lookup m a with
  | none =>
    cases hm' : Memory.lookup m' a with
    | none => rfl
    | some v => exact absurd (by simpa [hm, hm'] using e.symm) (Memory.lookup_ne_reset h' hm').2
  | some v =>
    cases hm' : Memory.lookup m' a with
    | none => exact absurd (by simpa [hm, hm'] using e) (Memory.lookup_ne_reset h hm).2
    | some w => simpa [hm, hm'] using e

/-! ### Storing bytes -/

namespace State

variable (s : State)

/-- `storeBytes` changes the memory alone. -/
theorem storeBytes_eq (a : Nat) (bs : List Byte) : s.storeBytes a bs = { s with mem := (s.storeBytes a bs).mem } := by
  induction bs generalizing s a with
  | nil => rfl
  | cons b bs ih =>
    simp only [storeBytes]
    rw [ih]
    rfl

@[simp] theorem storeBytes_cfg (a bs) : (s.storeBytes a bs).cfg = s.cfg := by rw [storeBytes_eq]
@[simp] theorem storeBytes_v (a bs) : (s.storeBytes a bs).v = s.v := by rw [storeBytes_eq]
@[simp] theorem storeBytes_i (a bs) : (s.storeBytes a bs).i = s.i := by rw [storeBytes_eq]
@[simp] theorem storeBytes_pc (a bs) : (s.storeBytes a bs).pc = s.pc := by rw [storeBytes_eq]
@[simp] theorem storeBytes_stack (a bs) : (s.storeBytes a bs).stack = s.stack := by rw [storeBytes_eq]
@[simp] theorem storeBytes_sp (a bs) : (s.storeBytes a bs).sp = s.sp := by rw [storeBytes_eq]
@[simp] theorem storeBytes_dt (a bs) : (s.storeBytes a bs).dt = s.dt := by rw [storeBytes_eq]
@[simp] theorem storeBytes_st (a bs) : (s.storeBytes a bs).st = s.st := by rw [storeBytes_eq]
@[simp] theorem storeBytes_fb (a bs) : (s.storeBytes a bs).fb = s.fb := by rw [storeBytes_eq]
@[simp] theorem storeBytes_keys (a bs) : (s.storeBytes a bs).keys = s.keys := by rw [storeBytes_eq]
@[simp] theorem storeBytes_keyEdge (a bs) : (s.storeBytes a bs).keyEdge = s.keyEdge := by rw [storeBytes_eq]
@[simp] theorem storeBytes_mode (a bs) : (s.storeBytes a bs).mode = s.mode := by rw [storeBytes_eq]
@[simp] theorem storeBytes_draws (a bs) : (s.storeBytes a bs).draws = s.draws := by rw [storeBytes_eq]
@[simp] theorem storeBytes_result (a bs) : (s.storeBytes a bs).result = s.result := by rw [storeBytes_eq]

/-- Storing bytes keeps the canonical form. -/
theorem storeBytes_canonical {s : State} (a : Nat) (bs : List Byte) (h : Canonical s) :
    Canonical (s.storeBytes a bs) := by
  induction bs generalizing s a with
  | nil => exact h
  | cons b bs ih => exact ih (a + 1) (Memory.write_wf b (Nat.mod_lt _ (by decide)) h)

/-- A byte outside the stored range is unchanged (R38). -/
theorem readByte_storeBytes_of_ne (a b : Nat) (bs : List Byte)
    (h : ∀ k, k < bs.length → b % memSize ≠ (a + k) % memSize) : (s.storeBytes a bs).readByte b = s.readByte b := by
  induction bs generalizing s a with
  | nil => rfl
  | cons c bs ih =>
    have h0 : b % memSize ≠ a % memSize := by simpa using h 0 (by simp)
    simp only [storeBytes]
    rw [ih _ _ fun k hk => by
      rw [show a + 1 + k = a + (k + 1) by omega]
      exact h (k + 1) (by simpa using hk)]
    simp [readByte, writeByte, Memory.read_write, h0]

/-- The bytes are stored in order from `a` on, each modulo 4096, as long as they do not overlap (R38, R107, R108). -/
theorem readByte_storeBytes (a k : Nat) (bs : List Byte) (hl : bs.length ≤ memSize) (hk : k < bs.length) :
    (s.storeBytes a bs).readByte (a + k) = bs[k] := by
  induction bs generalizing s a k with
  | nil => simp at hk
  | cons c bs ih =>
    simp only [List.length_cons] at hl hk
    simp only [storeBytes]
    cases k with
    | zero =>
      rw [readByte_storeBytes_of_ne _ _ _ _ fun k hk' => by simp only [memSize] at *; omega]
      simp [readByte, writeByte, Memory.read_write]
    | succ k =>
      rw [show a + (k + 1) = a + 1 + k by omega, ih _ _ _ (by omega) (by omega)]
      rfl

/-- Below 4096 an address is read as it stands (R37). -/
theorem readByte_of_lt (a : Nat) (h : a < memSize) : s.readByte a = Memory.read s.cfg s.mem a := by
  rw [readByte, Nat.mod_eq_of_lt h]

end State

/-! ### The fetch, and memory that nothing has been stored to -/

/-- What the next fetch reads at an address is the byte there (R39). -/
theorem fetchReads_readByte (t : State) (a : Nat) : FetchReads t a (t.readByte a) := by
  constructor <;> intro h
  · rw [State.fetchWord, highByte_wordOfBytes, ← h, State.readByte, State.readByte, memSize, Nat.mod_mod]
  · rw [State.fetchWord, lowByte_wordOfBytes, State.readByte, State.readByte, memSize, ← h]

/-- While nothing is listed, memory is at its zero and font state (R46). -/
theorem freshMemory_of_mem_eq_nil {s : State} (h : s.mem = []) : FreshMemory s := by
  have hf := s.cfg.fontBase.isLt
  constructor
  · intro k
    have hk := k.isLt
    rw [State.readByte, h, Nat.mod_eq_of_lt (by rw [memSize]; omega)]
    simp [Memory.read, Memory.lookup, resetByte]
  · intro a ha hout
    rw [State.readByte, h, Nat.mod_eq_of_lt (by rw [memSize]; exact ha)]
    simp only [Memory.read, Memory.lookup, Option.getD_none, resetByte]
    rw [dif_neg (by omega)]

end Sys2Proof.Machine
end

