-- ==== Sys2Proof/Laws/Ops.lean ====
section
/-! SUPPORT. What the other shared operations do, said once: register lists, skips, the advance of `I`, the call stack,
taking a fault. -/

namespace Sys2Proof.Machine

open Sys2Proof

namespace State

variable (s : State)

/-! ### Register lists -/

/-- `setRegsFrom` changes the registers alone. -/
theorem setRegsFrom_eq (k : Nat) (bs : List Byte) : s.setRegsFrom k bs = { s with v := (s.setRegsFrom k bs).v } := by
  induction bs generalizing s k with
  | nil => rfl
  | cons b bs ih =>
    simp only [setRegsFrom]
    rw [ih]
    rfl

@[simp] theorem setRegsFrom_cfg (k bs) : (s.setRegsFrom k bs).cfg = s.cfg := by rw [setRegsFrom_eq]
@[simp] theorem setRegsFrom_mem (k bs) : (s.setRegsFrom k bs).mem = s.mem := by rw [setRegsFrom_eq]
@[simp] theorem setRegsFrom_i (k bs) : (s.setRegsFrom k bs).i = s.i := by rw [setRegsFrom_eq]
@[simp] theorem setRegsFrom_pc (k bs) : (s.setRegsFrom k bs).pc = s.pc := by rw [setRegsFrom_eq]
@[simp] theorem setRegsFrom_stack (k bs) : (s.setRegsFrom k bs).stack = s.stack := by rw [setRegsFrom_eq]
@[simp] theorem setRegsFrom_sp (k bs) : (s.setRegsFrom k bs).sp = s.sp := by rw [setRegsFrom_eq]
@[simp] theorem setRegsFrom_dt (k bs) : (s.setRegsFrom k bs).dt = s.dt := by rw [setRegsFrom_eq]
@[simp] theorem setRegsFrom_st (k bs) : (s.setRegsFrom k bs).st = s.st := by rw [setRegsFrom_eq]
@[simp] theorem setRegsFrom_fb (k bs) : (s.setRegsFrom k bs).fb = s.fb := by rw [setRegsFrom_eq]
@[simp] theorem setRegsFrom_keys (k bs) : (s.setRegsFrom k bs).keys = s.keys := by rw [setRegsFrom_eq]
@[simp] theorem setRegsFrom_keyEdge (k bs) : (s.setRegsFrom k bs).keyEdge = s.keyEdge := by rw [setRegsFrom_eq]
@[simp] theorem setRegsFrom_mode (k bs) : (s.setRegsFrom k bs).mode = s.mode := by rw [setRegsFrom_eq]
@[simp] theorem setRegsFrom_draws (k bs) : (s.setRegsFrom k bs).draws = s.draws := by rw [setRegsFrom_eq]
@[simp] theorem setRegsFrom_result (k bs) : (s.setRegsFrom k bs).result = s.result := by rw [setRegsFrom_eq]

/-- Registers outside the list are unchanged. -/
theorem getReg_setRegsFrom_of_out (k : Nat) (bs : List Byte) (z : Reg) (hb : k + bs.length ≤ 16)
    (hz : z.val < k ∨ k + bs.length ≤ z.val) : (s.setRegsFrom k bs).getReg z = s.getReg z := by
  induction bs generalizing s k with
  | nil => rfl
  | cons b bs ih =>
    simp only [List.length_cons] at hb hz
    simp only [setRegsFrom]
    rw [ih _ _ (by omega) (by omega), getReg_setReg, if_neg]
    intro e
    have := congrArg Fin.val e
    simp only [Fin.val_ofNat] at this
    omega

/-- Register `k + j` receives byte `j` of the list. -/
theorem getReg_setRegsFrom (k j : Nat) (bs : List Byte) (z : Reg) (hb : k + bs.length ≤ 16) (hj : j < bs.length)
    (hz : z.val = k + j) : (s.setRegsFrom k bs).getReg z = bs[j] := by
  induction bs generalizing s k j with
  | nil => simp at hj
  | cons b bs ih =>
    simp only [List.length_cons] at hb hj
    simp only [setRegsFrom]
    cases j with
    | zero =>
      rw [getReg_setRegsFrom_of_out _ _ _ _ (by omega) (by omega), getReg_setReg, if_pos]
      · rfl
      · apply Fin.ext
        simp only [Fin.val_ofNat]
        omega
    | succ j => exact ih _ _ _ (by omega) (by omega) (by omega)

@[simp] theorem length_regsUpTo (x : Reg) : (s.regsUpTo x).length = x.val + 1 := by simp [regsUpTo]

@[simp] theorem length_readBytes (a n : Nat) : (s.readBytes a n).length = n := by simp [readBytes]

/-- Byte `k` of the stored list is `V[k]` (R108). -/
theorem getElem_regsUpTo (x : Reg) (k : Nat) (hk : k < (s.regsUpTo x).length) :
    (s.regsUpTo x)[k] = s.getReg (Fin.ofNat 16 k) := by simp [regsUpTo]

/-- Byte `k` of the loaded list is `M[a + k]` (R109). -/
theorem getElem_readBytes (a n k : Nat) (hk : k < (s.readBytes a n).length) :
    (s.readBytes a n)[k] = s.readByte (a + k) := by simp [readBytes]

/-! ### Skips and the advance of `I` -/

/-- A skip changes `pc` alone, and adds 2 to it when taken (R70). -/
theorem skipIf_eq (c : Bool) : s.skipIf c = s.setPc (if c then s.pc + 2 else s.pc) := by
  cases c <;> rfl

/-- The advance changes `I` alone (R108, R109). -/
theorem advanceI_eq (x : Reg) :
    s.advanceI x = s.setI (if s.cfg.lsIncrementsI then s.i + BitVec.ofNat 16 (x.val + 1) else s.i) := by
  unfold advanceI
  split <;> rfl

/-! ### The call stack -/

/-- A push with an entry free (R25). -/
theorem push_of_lt (ret : Addr) (h : s.sp.val < 16) :
    s.push ret = some { s with stack := s.stack.set s.sp.val ret h, sp := ⟨s.sp.val + 1, by omega⟩ } := by
  simp [push, h]

/-- A push with 16 entries in use (R25). -/
theorem push_of_full (ret : Addr) (h : s.sp.val = 16) : s.push ret = none := by simp [push, h]

/-- A pop with an entry in use (R26). -/
theorem pop_of_pos (h : 0 < s.sp.val) :
    s.pop = some (s.stack[s.sp.val - 1], { s with sp := ⟨s.sp.val - 1, by omega⟩ }) := by
  simp [pop, h]

/-- A pop with no entry in use (R26). -/
theorem pop_of_empty (h : s.sp.val = 0) : s.pop = none := by simp [pop, h]

end State

/-! ### Ending a step -/

theorem emit_eq (e : StepEvent) (s : State) : emit e s = .next (s.returning (.ok e)) := rfl

/-- A fault changes the mode alone (R120). -/
theorem raiseFault_eq (f : Fault) (s : State) :
    raiseFault f s = .next ((s.setMode (.halted f)).returning (.err f)) := rfl

/-- An invalid word halts or is a no-op (R72). -/
theorem execInvalid_eq (w : Word) (s : State) : execInvalid w s =
    if s.cfg.invalidOpcodeFatal then .next ((s.setMode (.halted (.invalidOpcode w))).returning (.err (.invalidOpcode w)))
    else .next (s.returning (.ok .executed)) := rfl

/-! ### The press latch -/

/-- `firstLatched` is none just when no key is latched (R115). -/
theorem firstLatched_eq_none (s : State) : s.firstLatched = none ↔ NoKeyLatched s := by
  simp [State.firstLatched, NoKeyLatched]

/-- `firstLatched` finds the lowest latched key (R115). -/
theorem firstLatched_eq_some (s : State) (k : Key) (hk : s.keyEdge[k] = true)
    (hlow : ∀ j : Key, j < k → s.keyEdge[j] = false) : s.firstLatched = some k := by
  rw [State.firstLatched, List.find?_eq_some_iff_getElem]
  refine ⟨hk, k.val, by simp, by simp, fun j hj => ?_⟩
  have := hlow ⟨j, by omega⟩ hj
  simpa using this

end Sys2Proof.Machine
end

