-- ==== Sys2Proof/Laws/Display.lean ====
section
/-! SUPPORT. The frame-buffer write engine: a draw flips exactly the pixels its sprite covers, each once, and hits where a
covered pixel was set (41_display R78, R79). -/

namespace Sys2Proof.Machine

open Sys2Proof

theorem pixelAt_blankScreen (y : Fin 32) (x : Fin 64) : pixelAt blankScreen y x = false := by
  simp [pixelAt, blankScreen]

/-- A flip changes the one pixel (R78). -/
theorem pixelAt_flipPixel (fb : FrameBuffer) (y y' : Fin 32) (x x' : Fin 64) :
    pixelAt (flipPixel fb y x) y' x' = if y' = y ∧ x' = x then !pixelAt fb y' x' else pixelAt fb y' x' := by
  simp only [pixelAt, flipPixel, Fin.getElem_fin, Vector.getElem_set]
  by_cases hy : y' = y
  · subst hy
    by_cases hx : x' = x
    · subst hx
      simp
    · have : x.val ≠ x'.val := fun e => hx (Fin.ext e.symm)
      simp [this, hx]
  · have : y.val ≠ y'.val := fun e => hy (Fin.ext e.symm)
    simp [this, hy]

/-- The sprite pixel at row `py`, column `px` lands at `(y, x)` (R79). -/
theorem landing_eq_some (wraps : Bool) (py px : Nat) (y : Fin 32) (x : Fin 64) :
    landing wraps py px = some (y, x) ↔
      if wraps then px % 64 = x.val ∧ py % 32 = y.val else px = x.val ∧ py = y.val := by
  cases wraps
  · simp only [landing, Bool.false_eq_true, if_false]
    split
    · simp [Fin.ext_iff, and_comm]
    · rename_i h
      constructor
      · intro e
        cases e
      · rintro ⟨rfl, rfl⟩
        exact absurd ⟨y.isLt, x.isLt⟩ h
  · simp [landing, Fin.ext_iff, and_comm]

/-- The places the engine visits, in order: row `y0 + r` and column `x0 + c` for each set bit `c` of byte `r`. -/
def visited (y0 x0 : Nat) (rows : Nat → Byte) (n : Nat) : List (Nat × Nat) :=
  (List.range n).flatMap fun r => ((List.range 8).filter (spriteBit (rows r))).map fun c => (y0 + r, x0 + c)

theorem mem_visited {y0 x0 : Nat} {rows : Nat → Byte} {n : Nat} {p : Nat × Nat} :
    p ∈ visited y0 x0 rows n ↔ ∃ r, r < n ∧ ∃ c, c < 8 ∧ spriteBit (rows r) c = true ∧ p = (y0 + r, x0 + c) := by
  simp only [visited, List.mem_flatMap, List.mem_range, List.mem_map, List.mem_filter]
  constructor
  · rintro ⟨r, hr, c, ⟨hc, hb⟩, rfl⟩
    exact ⟨r, hr, c, hc, hb, rfl⟩
  · rintro ⟨r, hr, c, hc, hb, rfl⟩
    exact ⟨r, hr, c, ⟨hc, hb⟩, rfl⟩

/-- A draw plots the visited places one after the other. -/
theorem drawRows_eq_foldl (wraps : Bool) (y0 x0 : Nat) (rows : Nat → Byte) (n : Nat) (acc : FrameBuffer × Bool) :
    drawRows wraps y0 x0 rows n acc =
      (visited y0 x0 rows n).foldl (fun acc p => plotPixel wraps p.1 p.2 acc) acc := by
  simp only [drawRows, drawRow, visited, List.foldl_flatMap, List.foldl_map, List.foldl_filter]

/-- Two places that never land on one pixel. -/
def Apart (wraps : Bool) (p q : Nat × Nat) : Prop :=
  ∀ z, landing wraps p.1 p.2 = some z → landing wraps q.1 q.2 ≠ some z

/-- No two visited places land on one pixel: a row has 8 pixels of 64, and at most 15 rows fit in 32 (R79). -/
theorem visited_apart (wraps : Bool) (y0 x0 : Nat) (rows : Nat → Byte) (n : Nat) (hn : n ≤ 16) :
    (visited y0 x0 rows n).Pairwise (Apart wraps) := by
  have key : ∀ r r' c c', r < 16 → r' < 16 → c < 8 → c' < 8 → r < r' ∨ c < c' →
      Apart wraps (y0 + r, x0 + c) (y0 + r', x0 + c') := by
    rintro r r' c c' hr hr' hc hc' hlt ⟨y, x⟩ h1 h2
    rw [landing_eq_some] at h1 h2
    cases wraps <;> simp only [Bool.false_eq_true, if_false, if_true] at h1 h2 <;> omega
  simp only [visited, List.pairwise_flatMap, List.pairwise_map, List.mem_range, List.mem_map, List.mem_filter]
  constructor
  · intro r hr
    refine (List.pairwise_lt_range (n := 8)).filter _ |>.imp_of_mem fun {c c'} hc hc' hlt => ?_
    have hc := List.mem_range.1 (List.mem_filter.1 hc).1
    have hc' := List.mem_range.1 (List.mem_filter.1 hc').1
    exact key r r c c' (by omega) (by omega) hc hc' (.inr hlt)
  · refine (List.pairwise_lt_range (n := n)).imp_of_mem fun {r r'} hr hr' hlt => ?_
    have hr := List.mem_range.1 hr
    have hr' := List.mem_range.1 hr'
    rintro p ⟨c, ⟨hc, -⟩, rfl⟩ q ⟨c', ⟨hc', -⟩, rfl⟩
    exact key r r' c c' (by omega) (by omega) hc hc' (.inl hlt)

theorem pixelAt_plotPixel (wraps : Bool) (p : Nat × Nat) (acc : FrameBuffer × Bool) (y : Fin 32) (x : Fin 64) :
    pixelAt (plotPixel wraps p.1 p.2 acc).1 y x =
      if landing wraps p.1 p.2 = some (y, x) then !pixelAt acc.1 y x else pixelAt acc.1 y x := by
  unfold plotPixel
  cases h : landing wraps p.1 p.2 with
  | none => simp
  | some z =>
    obtain ⟨y', x'⟩ := z
    simp only [pixelAt_flipPixel, Option.some.injEq, Prod.mk.injEq, eq_comm]

theorem hit_plotPixel (wraps : Bool) (p : Nat × Nat) (acc : FrameBuffer × Bool) :
    (plotPixel wraps p.1 p.2 acc).2 = true ↔
      acc.2 = true ∨ ∃ y x, landing wraps p.1 p.2 = some (y, x) ∧ pixelAt acc.1 y x = true := by
  unfold plotPixel
  cases h : landing wraps p.1 p.2 with
  | none => simp
  | some z =>
    obtain ⟨y', x'⟩ := z
    simp

/-- Plotting places that are apart flips each place's pixel once, and hits where such a pixel was set. -/
theorem foldl_plotPixel (wraps : Bool) (ps : List (Nat × Nat)) (hp : ps.Pairwise (Apart wraps))
    (acc : FrameBuffer × Bool) :
    (∀ y x, (∃ p ∈ ps, landing wraps p.1 p.2 = some (y, x)) →
      pixelAt (ps.foldl (fun acc p => plotPixel wraps p.1 p.2 acc) acc).1 y x = !pixelAt acc.1 y x) ∧
    (∀ y x, (¬ ∃ p ∈ ps, landing wraps p.1 p.2 = some (y, x)) →
      pixelAt (ps.foldl (fun acc p => plotPixel wraps p.1 p.2 acc) acc).1 y x = pixelAt acc.1 y x) ∧
    ((ps.foldl (fun acc p => plotPixel wraps p.1 p.2 acc) acc).2 = true ↔
      acc.2 = true ∨ ∃ y x, (∃ p ∈ ps, landing wraps p.1 p.2 = some (y, x)) ∧ pixelAt acc.1 y x = true) := by
  induction ps generalizing acc with
  | nil => simp
  | cons p ps ih =>
    rw [List.pairwise_cons] at hp
    obtain ⟨hfirst, hrest⟩ := hp
    obtain ⟨ih1, ih2, ih3⟩ := ih hrest (plotPixel wraps p.1 p.2 acc)
    have other : ∀ y x, (∃ q ∈ ps, landing wraps q.1 q.2 = some (y, x)) → landing wraps p.1 p.2 ≠ some (y, x) :=
      fun y x ⟨q, hq, hl⟩ hpl => hfirst q hq _ hpl hl
    simp only [List.foldl_cons, List.exists_mem_cons_iff]
    refine ⟨fun y x h => ?_, fun y x h => ?_, ?_⟩
    · rcases h with h | h
      · rw [ih2 y x fun h' => other y x h' h, pixelAt_plotPixel, if_pos h]
      · rw [ih1 y x h, pixelAt_plotPixel, if_neg (other y x h)]
    · rw [not_or] at h
      rw [ih2 y x h.2, pixelAt_plotPixel, if_neg h.1]
    · rw [ih3, hit_plotPixel, or_assoc]
      refine or_congr_right ⟨?_, ?_⟩
      · rintro (⟨y, x, hl, hs⟩ | ⟨y, x, hl, hs⟩)
        · exact ⟨y, x, .inl hl, hs⟩
        · rw [pixelAt_plotPixel, if_neg (other y x hl)] at hs
          exact ⟨y, x, .inr hl, hs⟩
      · rintro ⟨y, x, hl | hl, hs⟩
        · exact .inl ⟨y, x, hl, hs⟩
        · refine .inr ⟨y, x, hl, ?_⟩
          rw [pixelAt_plotPixel, if_neg (other y x hl)]
          exact hs

/-- The sprite covers a pixel just when a visited place lands on it. -/
theorem spriteCovers_iff (s : State) (x y : Reg) (n : Nibble) (py : Fin 32) (px : Fin 64) :
    SpriteCovers s x y n py px ↔
      ∃ p ∈ visited (s.startRow y) (s.startColumn x) (fun r => s.readByte (s.dataAddress r)) n.toNat,
        landing s.cfg.drawWraps p.1 p.2 = some (py, px) := by
  simp only [SpriteCovers, State.startRow, State.startColumn]
  constructor
  · rintro ⟨r, hr, c, hc, hb, hl⟩
    exact ⟨_, mem_visited.2 ⟨r, hr, c, hc, hb, rfl⟩, (landing_eq_some _ _ _ _ _).2 hl⟩
  · rintro ⟨p, hp, hl⟩
    obtain ⟨r, hr, c, hc, hb, rfl⟩ := mem_visited.1 hp
    exact ⟨r, hr, c, hc, hb, (landing_eq_some _ _ _ _ _).1 hl⟩

/-- What a draw does: it flips the covered pixels, leaves the others, and hits where a covered pixel was set (R79). -/
theorem drawSprite_spec (s : State) (x y : Reg) (n : Nibble) :
    (∀ py px, SpriteCovers s x y n py px → pixelAt (s.drawSprite x y n).1 py px = !pixelAt s.fb py px) ∧
    (∀ py px, ¬ SpriteCovers s x y n py px → pixelAt (s.drawSprite x y n).1 py px = pixelAt s.fb py px) ∧
    ((s.drawSprite x y n).2 = true ↔ ∃ py px, SpriteCovers s x y n py px ∧ pixelAt s.fb py px = true) := by
  simp only [State.drawSprite, drawRows_eq_foldl, spriteCovers_iff]
  have h := foldl_plotPixel s.cfg.drawWraps _
    (visited_apart s.cfg.drawWraps (s.startRow y) (s.startColumn x) (fun r => s.readByte (s.dataAddress r)) n.toNat
      (by omega)) (s.fb, false)
  simpa using h

/-- Frame buffers with equal pixels are equal. -/
theorem frameBuffer_ext (fb fb' : FrameBuffer) (h : ∀ y x, pixelAt fb y x = pixelAt fb' y x) : fb = fb' := by
  refine Vector.ext fun y hy => Vector.ext fun x hx => ?_
  simpa [pixelAt] using h ⟨y, hy⟩ ⟨x, hx⟩

end Sys2Proof.Machine
end

