-- ==== Sys2Proof/Laws/PerInstr.lean ====
section
/-! SUPPORT. Per instruction: its encoded word is selected by its own row of the opcode table (30_encoding R58). -/

namespace Sys2Proof.Laws.EncodedWord

open Sys2Proof

/-- The word of the instruction is selected by the instruction's row, and the row is one of the 34. -/
def Statement (i : Instr) : Prop := i.row.selects (encode i) = true ∧ i.row ∈ opcodeRows

theorem cls : Statement .cls :=
  ⟨by decide, (by decide : Instr.cls.row ∈ opcodeRows)⟩

theorem ret : Statement .ret :=
  ⟨by decide, (by decide : Instr.ret.row ∈ opcodeRows)⟩

theorem jp (nnn : Addr) : Statement (.jp nnn) :=
  ⟨selects_of ((formatA_and _ _).trans (by decide)), (by decide : (Instr.jp 0).row ∈ opcodeRows)⟩

theorem call (nnn : Addr) : Statement (.call nnn) :=
  ⟨selects_of ((formatA_and _ _).trans (by decide)), (by decide : (Instr.call 0).row ∈ opcodeRows)⟩

theorem seImm (x : Reg) (nn : Byte) : Statement (.seImm x nn) :=
  ⟨selects_of ((formatXB_and_T _ _ _).trans (by decide)), (by decide : (Instr.seImm 0 0).row ∈ opcodeRows)⟩

theorem sneImm (x : Reg) (nn : Byte) : Statement (.sneImm x nn) :=
  ⟨selects_of ((formatXB_and_T _ _ _).trans (by decide)), (by decide : (Instr.sneImm 0 0).row ∈ opcodeRows)⟩

theorem seReg (x y : Reg) : Statement (.seReg x y) :=
  ⟨selects_of ((formatXYN_and_TN _ _ _ _).trans (by decide)), (by decide : (Instr.seReg 0 0).row ∈ opcodeRows)⟩

theorem ldImm (x : Reg) (nn : Byte) : Statement (.ldImm x nn) :=
  ⟨selects_of ((formatXB_and_T _ _ _).trans (by decide)), (by decide : (Instr.ldImm 0 0).row ∈ opcodeRows)⟩

theorem addImm (x : Reg) (nn : Byte) : Statement (.addImm x nn) :=
  ⟨selects_of ((formatXB_and_T _ _ _).trans (by decide)), (by decide : (Instr.addImm 0 0).row ∈ opcodeRows)⟩

theorem ldReg (x y : Reg) : Statement (.ldReg x y) :=
  ⟨selects_of ((formatXYN_and_TN _ _ _ _).trans (by decide)), (by decide : (Instr.ldReg 0 0).row ∈ opcodeRows)⟩

theorem orReg (x y : Reg) : Statement (.orReg x y) :=
  ⟨selects_of ((formatXYN_and_TN _ _ _ _).trans (by decide)), (by decide : (Instr.orReg 0 0).row ∈ opcodeRows)⟩

theorem andReg (x y : Reg) : Statement (.andReg x y) :=
  ⟨selects_of ((formatXYN_and_TN _ _ _ _).trans (by decide)), (by decide : (Instr.andReg 0 0).row ∈ opcodeRows)⟩

theorem xorReg (x y : Reg) : Statement (.xorReg x y) :=
  ⟨selects_of ((formatXYN_and_TN _ _ _ _).trans (by decide)), (by decide : (Instr.xorReg 0 0).row ∈ opcodeRows)⟩

theorem addReg (x y : Reg) : Statement (.addReg x y) :=
  ⟨selects_of ((formatXYN_and_TN _ _ _ _).trans (by decide)), (by decide : (Instr.addReg 0 0).row ∈ opcodeRows)⟩

theorem sub (x y : Reg) : Statement (.sub x y) :=
  ⟨selects_of ((formatXYN_and_TN _ _ _ _).trans (by decide)), (by decide : (Instr.sub 0 0).row ∈ opcodeRows)⟩

theorem shr (x y : Reg) : Statement (.shr x y) :=
  ⟨selects_of ((formatXYN_and_TN _ _ _ _).trans (by decide)), (by decide : (Instr.shr 0 0).row ∈ opcodeRows)⟩

theorem subn (x y : Reg) : Statement (.subn x y) :=
  ⟨selects_of ((formatXYN_and_TN _ _ _ _).trans (by decide)), (by decide : (Instr.subn 0 0).row ∈ opcodeRows)⟩

theorem shl (x y : Reg) : Statement (.shl x y) :=
  ⟨selects_of ((formatXYN_and_TN _ _ _ _).trans (by decide)), (by decide : (Instr.shl 0 0).row ∈ opcodeRows)⟩

theorem sneReg (x y : Reg) : Statement (.sneReg x y) :=
  ⟨selects_of ((formatXYN_and_TN _ _ _ _).trans (by decide)), (by decide : (Instr.sneReg 0 0).row ∈ opcodeRows)⟩

theorem ldI (nnn : Addr) : Statement (.ldI nnn) :=
  ⟨selects_of ((formatA_and _ _).trans (by decide)), (by decide : (Instr.ldI 0).row ∈ opcodeRows)⟩

theorem jpV0 (nnn : Addr) : Statement (.jpV0 nnn) :=
  ⟨selects_of ((formatA_and _ _).trans (by decide)), (by decide : (Instr.jpV0 0).row ∈ opcodeRows)⟩

theorem rnd (x : Reg) (nn : Byte) : Statement (.rnd x nn) :=
  ⟨selects_of ((formatXB_and_T _ _ _).trans (by decide)), (by decide : (Instr.rnd 0 0).row ∈ opcodeRows)⟩

theorem drw (x y : Reg) (n : Nibble) : Statement (.drw x y n) :=
  ⟨selects_of ((formatXYN_and_T _ _ _ _).trans (by decide)), (by decide : (Instr.drw 0 0 0).row ∈ opcodeRows)⟩

theorem skp (x : Reg) : Statement (.skp x) :=
  ⟨selects_of ((formatXB_and_TNN _ _ _).trans (by decide)), (by decide : (Instr.skp 0).row ∈ opcodeRows)⟩

theorem sknp (x : Reg) : Statement (.sknp x) :=
  ⟨selects_of ((formatXB_and_TNN _ _ _).trans (by decide)), (by decide : (Instr.sknp 0).row ∈ opcodeRows)⟩

theorem ldXDt (x : Reg) : Statement (.ldXDt x) :=
  ⟨selects_of ((formatXB_and_TNN _ _ _).trans (by decide)), (by decide : (Instr.ldXDt 0).row ∈ opcodeRows)⟩

theorem ldXK (x : Reg) : Statement (.ldXK x) :=
  ⟨selects_of ((formatXB_and_TNN _ _ _).trans (by decide)), (by decide : (Instr.ldXK 0).row ∈ opcodeRows)⟩

theorem ldDtX (x : Reg) : Statement (.ldDtX x) :=
  ⟨selects_of ((formatXB_and_TNN _ _ _).trans (by decide)), (by decide : (Instr.ldDtX 0).row ∈ opcodeRows)⟩

theorem ldStX (x : Reg) : Statement (.ldStX x) :=
  ⟨selects_of ((formatXB_and_TNN _ _ _).trans (by decide)), (by decide : (Instr.ldStX 0).row ∈ opcodeRows)⟩

theorem addIX (x : Reg) : Statement (.addIX x) :=
  ⟨selects_of ((formatXB_and_TNN _ _ _).trans (by decide)), (by decide : (Instr.addIX 0).row ∈ opcodeRows)⟩

theorem ldFX (x : Reg) : Statement (.ldFX x) :=
  ⟨selects_of ((formatXB_and_TNN _ _ _).trans (by decide)), (by decide : (Instr.ldFX 0).row ∈ opcodeRows)⟩

theorem ldBX (x : Reg) : Statement (.ldBX x) :=
  ⟨selects_of ((formatXB_and_TNN _ _ _).trans (by decide)), (by decide : (Instr.ldBX 0).row ∈ opcodeRows)⟩

theorem ldMemX (x : Reg) : Statement (.ldMemX x) :=
  ⟨selects_of ((formatXB_and_TNN _ _ _).trans (by decide)), (by decide : (Instr.ldMemX 0).row ∈ opcodeRows)⟩

theorem ldXMem (x : Reg) : Statement (.ldXMem x) :=
  ⟨selects_of ((formatXB_and_TNN _ _ _).trans (by decide)), (by decide : (Instr.ldXMem 0).row ∈ opcodeRows)⟩

end Sys2Proof.Laws.EncodedWord
end

