-- ==== Sys2Proof/Laws/Step.lean ====
section
/-! SUPPORT. What a step can do, said once: by mode (40_interpreter R66), and what executing an instruction can do to the
configuration, the key levels, the memory, the registers and the mode. -/

namespace Sys2Proof.Machine

open Sys2Proof

theorem step_of_halted {s : State} {f : Fault} (h : s.mode = .halted f) : step s = .next (s.returning (.err f)) := by
  simp [step, h, haltedStep]

theorem step_of_waiting {s : State} {x : Reg} (h : s.mode = .waitingForKey x) : step s = keywaitPoll x s := by
  simp [step, h]

theorem step_of_running {s : State} (h : s.mode = .running) : step s = runningStep s := by
  simp [step, h]

/-- A step is one of four: halted, polling for a key, executing the decoded instruction, or an invalid word (R66). -/
theorem step_cases (s : State) :
    (∃ f, s.mode = .halted f ∧ step s = .next (s.returning (.err f))) ∨
    (∃ x, s.mode = .waitingForKey x ∧ step s = keywaitPoll x s) ∨
    (∃ ins, s.mode = .running ∧ decodeWord s.fetchWord = some ins ∧ step s = exec ins s.advancePc) ∨
    (s.mode = .running ∧ decodeWord s.fetchWord = none ∧ step s = execInvalid s.fetchWord s.advancePc) := by
  cases hm : s.mode with
  | halted f => exact .inl ⟨f, rfl, step_of_halted hm⟩
  | waitingForKey x => exact .inr (.inl ⟨x, rfl, step_of_waiting hm⟩)
  | running =>
    cases hd : decodeWord s.fetchWord with
    | some ins => exact .inr (.inr (.inl ⟨ins, rfl, rfl, by simp [step_of_running hm, runningStep, hd]⟩))
    | none => exact .inr (.inr (.inr ⟨rfl, rfl, by simp [step_of_running hm, runningStep, hd]⟩))

/-- A key-wait poll idles, or delivers the lowest latched key (R115). -/
theorem keywaitPoll_cases (x : Reg) (s : State) :
    (s.firstLatched = none ∧ keywaitPoll x s = .next (s.returning (.ok .idle))) ∨
    (∃ k, s.firstLatched = some k ∧ keywaitPoll x s =
      .next ((((s.setReg x (BitVec.ofNat 8 k.val)).clearLatch).setMode .running).returning (.ok .executed))) := by
  cases h : s.firstLatched with
  | none => exact .inl ⟨rfl, by simp [keywaitPoll, h, emit]⟩
  | some k => exact .inr ⟨k, rfl, by simp [keywaitPoll, h, emit]⟩

/-- Executing an instruction keeps the configuration and the key levels, and changes memory only as storing some list of
bytes does (R6, R29, R42). -/
theorem exec_keeps {i : Instr} {s t : State} (h : exec i s = .next t) :
    t.cfg = s.cfg ∧ t.keys = s.keys ∧ ∃ a bs, t.mem = (s.storeBytes a bs).mem := by
  cases i
  case ret =>
    simp only [exec, execRet] at h
    split at h
    · rename_i hp
      simp only [State.pop] at hp
      split at hp <;> cases hp
      cases h
      exact ⟨rfl, rfl, 0, [], rfl⟩
    · cases h
      exact ⟨rfl, rfl, 0, [], rfl⟩
  case call nnn =>
    simp only [exec, execCall] at h
    split at h
    · rename_i hp
      simp only [State.push] at hp
      split at hp <;> cases hp
      cases h
      exact ⟨rfl, rfl, 0, [], rfl⟩
    · cases h
      exact ⟨rfl, rfl, 0, [], rfl⟩
  case ldBX x =>
    cases h
    exact ⟨by simp, by simp, _, _, rfl⟩
  case ldMemX x =>
    cases h
    exact ⟨by simp [State.advanceI_eq], by simp [State.advanceI_eq], s.dataAddress 0, s.regsUpTo x,
      by simp [State.advanceI_eq]⟩
  case ldXMem x =>
    cases h
    exact ⟨by simp [State.advanceI_eq], by simp [State.advanceI_eq], 0, [], by
      simp [State.advanceI_eq, State.storeBytes]⟩
  all_goals
    cases h
    exact ⟨by simp [State.skipIf_eq], by simp [State.skipIf_eq], 0, [], by simp [State.skipIf_eq, State.storeBytes]⟩

/-- After an instruction the machine runs on or waits for a key, having returned `Ok`; or it has halted with the fault it
returned (R71, R120). -/
theorem exec_mode {i : Instr} {s t : State} (h : exec i s = .next t) :
    (t.mode = s.mode ∧ ∃ e, t.result = .ok e) ∨ (∃ x, t.mode = .waitingForKey x ∧ t.result = .ok .executed) ∨
      ∃ f, t.mode = .halted f ∧ t.result = .err f := by
  cases i
  case ret =>
    simp only [exec, execRet] at h
    split at h
    · rename_i hp
      simp only [State.pop] at hp
      split at hp <;> cases hp
      cases h
      exact .inl ⟨rfl, _, rfl⟩
    · cases h
      exact .inr (.inr ⟨_, rfl, rfl⟩)
  case call nnn =>
    simp only [exec, execCall] at h
    split at h
    · rename_i hp
      simp only [State.push] at hp
      split at hp <;> cases hp
      cases h
      exact .inl ⟨rfl, _, rfl⟩
    · cases h
      exact .inr (.inr ⟨_, rfl, rfl⟩)
  case ldXK x =>
    cases h
    exact .inr (.inl ⟨x, rfl, rfl⟩)
  all_goals
    cases h
    exact .inl ⟨by simp [State.skipIf_eq, State.advanceI_eq], _, rfl⟩

/-- A register reads as before after any instruction that does not write it (R18). -/
theorem exec_getReg_of_not_writes {i : Instr} {s t : State} {z : Reg} (h : exec i s = .next t) (hz : ¬ WritesReg z i) :
    t.getReg z = s.getReg z := by
  cases i
  case ret =>
    simp only [exec, execRet] at h
    split at h
    · rename_i hp
      simp only [State.pop] at hp
      split at hp <;> cases hp
      cases h
      rfl
    · cases h
      rfl
  case call nnn =>
    simp only [exec, execCall] at h
    split at h
    · rename_i hp
      simp only [State.push] at hp
      split at hp <;> cases hp
      cases h
      rfl
    · cases h
      rfl
  case ldBX x =>
    cases h
    simp [State.getReg]
  case ldMemX x =>
    cases h
    simp [State.getReg, State.advanceI_eq]
  case ldXMem x =>
    cases h
    simp only [WritesReg, Fin.le_def] at hz
    rw [State.returning_getReg, State.advanceI_eq, State.setI_getReg, State.getReg_setRegsFrom_of_out]
    · rw [State.length_readBytes]
      omega
    · exact .inr (by rw [State.length_readBytes]; omega)
  all_goals
    cases h
    simp_all [WritesReg, State.skipIf_eq, State.setRegAndFlag, State.setFlag, State.getReg_setReg]

/-- After an instruction the mode is the one before, or `FX0A` waits, or a call or a return has faulted (R31, R119). -/
theorem exec_mode_cases {i : Instr} {s t : State} (h : exec i s = .next t) :
    t.mode = s.mode ∨ (∃ x, i = .ldXK x ∧ t.mode = .waitingForKey x) ∨
      (∃ nnn, i = .call nnn ∧ s.sp.val = 16 ∧ t.mode = .halted .stackOverflow) ∨
      (i = .ret ∧ s.sp.val = 0 ∧ t.mode = .halted .stackUnderflow) := by
  cases i
  case ret =>
    rcases Nat.eq_zero_or_pos s.sp.val with h0 | h0
    · simp only [exec, execRet, State.pop_of_empty s h0] at h
      cases h
      exact .inr (.inr (.inr ⟨rfl, h0, rfl⟩))
    · simp only [exec, execRet, State.pop_of_pos s h0] at h
      cases h
      exact .inl rfl
  case call nnn =>
    by_cases h0 : s.sp.val < 16
    · simp only [exec, execCall, State.push_of_lt s _ h0] at h
      cases h
      exact .inl rfl
    · have h16 : s.sp.val = 16 := by omega
      simp only [exec, execCall, State.push_of_full s _ h16] at h
      cases h
      exact .inr (.inr (.inl ⟨nnn, rfl, h16, rfl⟩))
  case ldXK x =>
    cases h
    exact .inr (.inl ⟨x, rfl, rfl⟩)
  all_goals
    cases h
    exact .inl (by simp [State.skipIf_eq, State.advanceI_eq])

end Sys2Proof.Machine
end

