-- ==== Sys2Proof/Laws/Transactions.lean ====
section
/-! SUPPORT. The host's transactions: sequences, restoring a blob, and that a snapshot format exists. -/

namespace Sys2Proof.Machine

open Sys2Proof

/-! ### Sequences -/

@[simp] theorem transactAll_nil (fmt : SnapshotFormat) (s : State) : transactAll fmt [] s = .next (s, []) := rfl

/-- A sequence answers just when its first transaction and then the rest do (R63). -/
theorem transactAll_cons_eq_next (fmt : SnapshotFormat) (t : Transaction) (ts : List Transaction) (s u : State)
    (rs : List Reply) : transactAll fmt (t :: ts) s = .next (u, rs) ↔
      ∃ s' r rs', transact fmt t s = .next (s', r) ∧ transactAll fmt ts s' = .next (u, rs') ∧ rs = r :: rs' := by
  rw [transactAll]
  cases h : transact fmt t s with
  | fault f => simp
  | refused q => simp
  | next p =>
    obtain ⟨s', r⟩ := p
    cases h' : transactAll fmt ts s' with
    | fault f => simp [h']
    | refused q => simp [h']
    | next p' => simp [h', Prod.ext_iff, eq_comm, and_comm]

/-! ### Restoring a blob -/

/-- The blob of a snapshot reads as it (R76). -/
@[simp] theorem read_write (fmt : SnapshotFormat) (b : Snapshot) : fmt.read (fmt.write b) = some b :=
  (fmt.read_eq_some_iff _ _).2 rfl

/-- Two snapshots with one blob are the same (R76). -/
theorem write_injective (fmt : SnapshotFormat) : Function.Injective fmt.write := fun a b h =>
  Option.some.inj ((read_write fmt a).symm.trans (h ▸ read_write fmt b))

theorem restoreTransaction_write {fmt : SnapshotFormat} {b : Snapshot} {s : State} (h : Memory.wf s.cfg b.mem = true) :
    restoreTransaction fmt (fmt.write b) s = .next (s.restore b, .unit) := by
  simp [restoreTransaction, h]

theorem restoreTransaction_write_of_not_wf {fmt : SnapshotFormat} {b : Snapshot} {s : State}
    (h : Memory.wf s.cfg b.mem = false) : restoreTransaction fmt (fmt.write b) s = .refused .blobNotFromSnapshot := by
  simp [restoreTransaction, h]

/-- `restore` sets the state of a snapshot whose blob it is given and whose memory is canonical, or refuses (R76). -/
theorem restoreTransaction_cases (fmt : SnapshotFormat) (blob : List Byte) (s : State) :
    (∃ b, fmt.write b = blob ∧ Memory.wf s.cfg b.mem = true ∧
      restoreTransaction fmt blob s = .next (s.restore b, .unit)) ∨
    restoreTransaction fmt blob s = .refused .blobNotFromSnapshot := by
  cases h : fmt.read blob with
  | none => exact .inr (by rw [restoreTransaction, h])
  | some b =>
    obtain rfl := (fmt.read_eq_some_iff _ _).1 h
    cases hw : Memory.wf s.cfg b.mem with
    | true => exact .inl ⟨b, rfl, hw, restoreTransaction_write hw⟩
    | false => exact .inr (restoreTransaction_write_of_not_wf hw)

/-! ### A snapshot format exists -/

/-- A fault as a number. -/
def faultCode : Fault → Nat
  | .stackOverflow => 0
  | .stackUnderflow => 1
  | .invalidOpcode w => 2 + w.toNat

theorem faultCode_injective : Function.Injective faultCode := by
  intro f g h
  cases f <;> cases g <;> simp only [faultCode] at h <;> first | rfl | omega | skip
  exact congrArg _ (BitVec.eq_of_toNat_eq (by omega))

/-- A mode as a number. -/
def modeCode : Mode → Nat
  | .running => 0
  | .waitingForKey x => 1 + x.val
  | .halted f => 17 + faultCode f

theorem modeCode_injective : Function.Injective modeCode := by
  intro m n h
  cases m <;> cases n <;> simp only [modeCode] at h <;> first | rfl | omega | skip
  · exact congrArg _ (Fin.ext (by omega))
  · exact congrArg _ (faultCode_injective (by omega))

/-- A snapshot as lists of numbers. -/
def snapshotCode (b : Snapshot) : List (Nat × Nat) × List (List Nat) × List (List Nat) :=
  (b.mem.map fun c => (c.1, c.2.toNat), b.fb.toList.map fun row => row.toList.map Bool.toNat,
    [b.v.toList.map BitVec.toNat, b.stack.toList.map BitVec.toNat, b.keyEdge.toList.map Bool.toNat,
      [b.i.toNat, b.pc.toNat, b.sp.val, b.dt.toNat, b.st.toNat, modeCode b.mode]])

theorem toNat_injective {n : Nat} : Function.Injective (BitVec.toNat (w := n)) := fun _ _ => BitVec.eq_of_toNat_eq

theorem boolToNat_injective : Function.Injective Bool.toNat := by decide

theorem toList_injective {α : Type} {n : Nat} : Function.Injective (Vector.toList (α := α) (n := n)) :=
  fun _ _ => Vector.toList_inj.1

/-- No item of a snapshot is lost. -/
theorem snapshotCode_injective : Function.Injective snapshotCode := by
  intro a b h
  obtain ⟨mem, v, i, pc, stack, sp, dt, st, fb, keyEdge, mode⟩ := a
  simp only [snapshotCode, Prod.mk.injEq, List.cons.injEq, and_true] at h
  obtain ⟨hmem, hfb, hv, hstack, hedge, hi, hpc, hsp, hdt, hst, hmode⟩ := h
  have hcell : Function.Injective fun c : Host.Cell => (c.1, c.2.toNat) := fun c d e =>
    Prod.ext (Prod.ext_iff.1 e).1 (toNat_injective (Prod.ext_iff.1 e).2)
  have hrow : Function.Injective fun row : Vector Bool 64 => row.toList.map Bool.toNat := fun r q e =>
    toList_injective (boolToNat_injective.list_map e)
  obtain rfl := hcell.list_map hmem
  obtain rfl := toList_injective (hrow.list_map hfb)
  obtain rfl := toList_injective (toNat_injective.list_map hv)
  obtain rfl := toList_injective (toNat_injective.list_map hstack)
  obtain rfl := toList_injective (boolToNat_injective.list_map hedge)
  obtain rfl := toNat_injective hi
  obtain rfl := toNat_injective hpc
  obtain rfl := Fin.ext hsp
  obtain rfl := toNat_injective hdt
  obtain rfl := toNat_injective hst
  obtain rfl := modeCode_injective hmode
  rfl

/-- An injective numbering of the snapshots is a format: a blob of as many bytes as the snapshot's number. -/
theorem nonempty_snapshotFormat : Nonempty SnapshotFormat := by
  have hcode : Function.Injective fun b => List.replicate (Encodable.encode (snapshotCode b)) (0 : Byte) := fun a b h =>
    snapshotCode_injective (Encodable.encode_injective (by simpa using congrArg List.length h))
  exact ⟨_, Function.partialInv _, fun blob b => hcode.isPartialInv b blob⟩

end Sys2Proof.Machine
end

