-- ==== Sys2Proof/Machine/Assembly.lean ====
section
/-! DEFINITION. The conventional assembler spelling of the instructions (30_encoding R62). Naming only: no meaning depends on
it. -/

namespace Sys2Proof.Machine

open Sys2Proof

/-- The lowest `n` hexadecimal digits of a number, the highest first. -/
def hexDigits : Nat → Nat → String
  | 0, _ => ""
  | n + 1, a => hexDigits n (a / 16) ++ String.singleton (Nat.digitChar (a % 16)).toUpper

/-- `Vx`: a register, its number in hexadecimal (R62). -/
def regName (x : Reg) : String := "V" ++ hexDigits 1 x.val

/-- `byte`: an immediate byte (R62). -/
def byteName (nn : Byte) : String := "0x" ++ hexDigits 2 nn.toNat

/-- `addr`: a 12-bit address (R62). -/
def addrName (nnn : Addr) : String := "0x" ++ hexDigits 3 nnn.toNat

/-- The assembler line of an instruction (R62). -/
def assembly : Instr → String
  | .cls => "CLS"
  | .ret => "RET"
  | .jp nnn => "JP " ++ addrName nnn
  | .call nnn => "CALL " ++ addrName nnn
  | .seImm x nn => "SE " ++ regName x ++ ", " ++ byteName nn
  | .sneImm x nn => "SNE " ++ regName x ++ ", " ++ byteName nn
  | .seReg x y => "SE " ++ regName x ++ ", " ++ regName y
  | .ldImm x nn => "LD " ++ regName x ++ ", " ++ byteName nn
  | .addImm x nn => "ADD " ++ regName x ++ ", " ++ byteName nn
  | .ldReg x y => "LD " ++ regName x ++ ", " ++ regName y
  | .orReg x y => "OR " ++ regName x ++ ", " ++ regName y
  | .andReg x y => "AND " ++ regName x ++ ", " ++ regName y
  | .xorReg x y => "XOR " ++ regName x ++ ", " ++ regName y
  | .addReg x y => "ADD " ++ regName x ++ ", " ++ regName y
  | .sub x y => "SUB " ++ regName x ++ ", " ++ regName y
  | .shr x y => "SHR " ++ regName x ++ ", " ++ regName y
  | .subn x y => "SUBN " ++ regName x ++ ", " ++ regName y
  | .shl x y => "SHL " ++ regName x ++ ", " ++ regName y
  | .sneReg x y => "SNE " ++ regName x ++ ", " ++ regName y
  | .ldI nnn => "LD I, " ++ addrName nnn
  | .jpV0 nnn => "JP V0, " ++ addrName nnn
  | .rnd x nn => "RND " ++ regName x ++ ", " ++ byteName nn
  | .drw x y n => "DRW " ++ regName x ++ ", " ++ regName y ++ ", " ++ hexDigits 1 n.toNat
  | .skp x => "SKP " ++ regName x
  | .sknp x => "SKNP " ++ regName x
  | .ldXDt x => "LD " ++ regName x ++ ", DT"
  | .ldXK x => "LD " ++ regName x ++ ", K"
  | .ldDtX x => "LD DT, " ++ regName x
  | .ldStX x => "LD ST, " ++ regName x
  | .addIX x => "ADD I, " ++ regName x
  | .ldFX x => "LD F, " ++ regName x
  | .ldBX x => "LD B, " ++ regName x
  | .ldMemX x => "LD [I], " ++ regName x
  | .ldXMem x => "LD " ++ regName x ++ ", [I]"

/-- The assembler line of a data byte (R62). -/
def assemblyByte (b : Byte) : String := "DB " ++ byteName b

end Sys2Proof.Machine
end

