-- ==== Sys2Proof/Tests/Slice0.lean ====
section
/-! SUPPORT. The model's own tests: the smoke test of the checks, one word per constructor written out from R55 and R58, single
steps from 95_test_vectors.md, and a witness for each statement that has hypotheses. -/

namespace Sys2Proof.Tests

open Sys2Proof Sys2Proof.Machine

/-! ### The checks refuse what is ill formed -/

/-- R59, one invalid word per major opcode, and three valid ones beside them. -/
theorem test_wellFormedWord :
    [0x0123, 0x5121, 0x812F, 0x9121, 0xE19F, 0xF108].all (fun w => !wellFormedWord w) = true ∧
      [0x00E0, 0x5120, 0xF165].all (fun w => wellFormedWord w) = true := by decide

/-- Addresses out of order, an address past 0xFFF, and an entry equal to the reset content are each refused (log 9). -/
theorem test_memory_wf_refuses :
    Memory.wf .default [(0x301, 1), (0x300, 2)] = false ∧ Memory.wf .default [(0x1000, 1)] = false ∧
      Memory.wf .default [(0x300, 0)] = false ∧ Memory.wf .default [(0x050, 0xF0)] = false ∧
      Memory.wf .default [(0x050, 0x00), (0x300, 1)] = true := by decide

/-- `set_key` of index 16 is outside the interface (R73). -/
theorem test_setKey_refuses (fmt : SnapshotFormat) :
    transact fmt (.setKey 16 true) .reset = .refused (.keyIndexOutsideInterface 16) := by rfl

/-- A blob whose memory is not canonical is no snapshot (R76), nor is one the format does not read. -/
theorem test_restore_refuses (fmt : SnapshotFormat) :
    transact fmt (.restore (fmt.write { State.reset.snapshot with mem := [(0x300, 0)] })) .reset =
        .refused .blobNotFromSnapshot ∧
      ∀ blob, fmt.read blob = none → transact fmt (.restore blob) .reset = .refused .blobNotFromSnapshot :=
  ⟨restoreTransaction_write_of_not_wf (by decide), fun _ h => by rw [transact, restoreTransaction, h]⟩

/-! ### Decoding: a word of each row, its bits from R55 and R58 -/

theorem test_decode_cls : decodeWord 0b0000000011100000 = some .cls := by decide
theorem test_decode_ret : decodeWord 0b0000000011101110 = some .ret := by decide
theorem test_decode_jp : decodeWord 0b0001001000110100 = some (.jp 0x234) := by decide
theorem test_decode_call : decodeWord 0b0010010001010110 = some (.call 0x456) := by decide
theorem test_decode_seImm : decodeWord 0b0011000101000010 = some (.seImm 1 0x42) := by decide
theorem test_decode_sneImm : decodeWord 0b0100001000000101 = some (.sneImm 2 0x05) := by decide
theorem test_decode_seReg : decodeWord 0b0101001101000000 = some (.seReg 3 4) := by decide
theorem test_decode_ldImm : decodeWord 0b0110101001111011 = some (.ldImm 0xA 0x7B) := by decide
theorem test_decode_addImm : decodeWord 0b0111000100000101 = some (.addImm 1 0x05) := by decide
theorem test_decode_ldReg : decodeWord 0b1000000100100000 = some (.ldReg 1 2) := by decide
theorem test_decode_orReg : decodeWord 0b1000000100100001 = some (.orReg 1 2) := by decide
theorem test_decode_andReg : decodeWord 0b1000000100100010 = some (.andReg 1 2) := by decide
theorem test_decode_xorReg : decodeWord 0b1000000100100011 = some (.xorReg 1 2) := by decide
theorem test_decode_addReg : decodeWord 0b1000000100100100 = some (.addReg 1 2) := by decide
theorem test_decode_sub : decodeWord 0b1000000100100101 = some (.sub 1 2) := by decide
theorem test_decode_shr : decodeWord 0b1000000100100110 = some (.shr 1 2) := by decide
theorem test_decode_subn : decodeWord 0b1000000100100111 = some (.subn 1 2) := by decide
theorem test_decode_shl : decodeWord 0b1000000100101110 = some (.shl 1 2) := by decide
theorem test_decode_sneReg : decodeWord 0b1001001101000000 = some (.sneReg 3 4) := by decide
theorem test_decode_ldI : decodeWord 0b1010000100100011 = some (.ldI 0x123) := by decide
theorem test_decode_jpV0 : decodeWord 0b1011001100000000 = some (.jpV0 0x300) := by decide
theorem test_decode_rnd : decodeWord 0b1100001100001111 = some (.rnd 3 0x0F) := by decide
theorem test_decode_drw : decodeWord 0b1101111100010101 = some (.drw 0xF 1 5) := by decide
theorem test_decode_skp : decodeWord 0b1110010110011110 = some (.skp 5) := by decide
theorem test_decode_sknp : decodeWord 0b1110010110100001 = some (.sknp 5) := by decide
theorem test_decode_ldXDt : decodeWord 0b1111001100000111 = some (.ldXDt 3) := by decide
theorem test_decode_ldXK : decodeWord 0b1111010100001010 = some (.ldXK 5) := by decide
theorem test_decode_ldDtX : decodeWord 0b1111000000010101 = some (.ldDtX 0) := by decide
theorem test_decode_ldStX : decodeWord 0b1111000100011000 = some (.ldStX 1) := by decide
theorem test_decode_addIX : decodeWord 0b1111001000011110 = some (.addIX 2) := by decide
theorem test_decode_ldFX : decodeWord 0b1111000000101001 = some (.ldFX 0) := by decide
theorem test_decode_ldBX : decodeWord 0b1111101000110011 = some (.ldBX 0xA) := by decide
theorem test_decode_ldMemX : decodeWord 0b1111000101010101 = some (.ldMemX 1) := by decide
theorem test_decode_ldXMem : decodeWord 0b1111001001100101 = some (.ldXMem 2) := by decide

/-- The table form of a word decodes as the word does, and an invalid one is rejected. -/
theorem test_decodeTableWord : decodeTableWord 16 0xD015 = some (.drw 0 1 5) ∧ decodeTableWord 16 0x0000 = none := by decide

/-- From bytes, high byte first, the rest left; one byte alone is truncated. -/
theorem test_decodeBytes :
    decodeBytes [0xA3, 0x00, 0x22] = .instr (.ldI 0x300) [0x22] ∧ decodeBytes [0x01, 0x23] = .invalid 0x0123 [] ∧
      decodeBytes [0x60] = .truncated [0x60] := by decide

/-- The assembler spelling of R62, from the names the rules R91, R79 and R108 give. -/
theorem test_assembly :
    assembly (.ldImm 0xA 0x7B) = "LD VA, 0x7B" ∧ assembly (.drw 3 4 5) = "DRW V3, V4, 5" ∧
      assembly (.ldMemX 1) = "LD [I], V1" := by decide

/-! ### Single steps, from 95_test_vectors.md (the vector's id stands in each comment) -/

/-- The next state of an answer, if it is one. -/
def nextOf : Answer → Option State
  | .next t => some t
  | .fault _ => none
  | .refused _ => none

/-- The state after one step with the word placed at `pc`. -/
def after (w : Nat) (s : State) : Option State := nextOf (step (s.withFetchWord 16 w))

/-- The reset state with `V[x] = a` and `V[y] = b`. -/
def regs (x : Reg) (a : Byte) (y : Reg) (b : Byte) : State := (State.reset.setReg x a).setReg y b

/-- What a test looks at: the values of VF and of one register, and the `pc`. -/
def look (x : Reg) (t : State) : Byte × Byte × Addr := (t.getReg 0xF, t.getReg x, t.pc)

/-- The default configuration with the three quirk switches the other way. -/
def quirks : Config := { Config.default with shiftUsesVy := true, drawWraps := false, lsIncrementsI := true }

/-- The state of the draw vectors: a sprite of two bytes at 0x300, drawn at `V[0]`, `V[1]`. -/
def sprite (cfg : Config) (b c x y : Byte) : State :=
  ((((State.construct cfg).storeBytes 0x300 [b, c]).setI 0x300).setReg 0 x).setReg 1 y

/-- The frame buffer with one pixel set. -/
def dot (s : State) (y : Fin 32) (x : Fin 64) : State := s.setFb (flipPixel s.fb y x)

/-- What a draw test looks at: VF, the result, and the pixels named. -/
def picture (ps : List (Fin 32 × Fin 64)) (t : State) : Byte × StepResult × List Bool :=
  (t.getReg 0xF, t.result, ps.map fun p => pixelAt t.fb p.1 p.2)

/-- D1 -/
theorem test_cls : (after 0x00E0 (dot (regs 0xF 7 0 0) 31 63)).map (picture [(31, 63)]) = some (7, .ok .redraw, [false]) := by decide

/-- D4: a set pixel is flipped off -/
theorem test_drw_collides : (after 0xD011 (dot (sprite .default 0x81 0 8 2) 2 8)).map (picture [(2, 8), (2, 9), (2, 15)]) =
    some (1, .ok .redraw, [false, false, true]) := by decide

/-- D8 and D9: the bottom edge wraps, or clips -/
theorem test_drw_bottom_edge : (after 0xD012 (sprite .default 0x80 0x80 0 31)).map (picture [(31, 0), (0, 0)]) = some (0, .ok .redraw, [true, true]) ∧
    (after 0xD012 (sprite quirks 0x80 0x80 0 31)).map (picture [(31, 0), (0, 0)]) = some (0, .ok .redraw, [true, false]) := by decide

/-- C6 -/
theorem test_ret : (after 0x00EE ((((regs 0 0 1 0).push 0x206).getD .reset).setPc 0x210)).map (fun t => (t.sp, t.pc)) = some (0, 0x206) := by decide

/-- C7 -/
theorem test_ret_underflow : (after 0x00EE .reset).map (fun t => (t.mode, t.pc, t.result)) =
    some (.halted .stackUnderflow, 0x202, .err .stackUnderflow) := by decide

/-- C1 -/
theorem test_jp : (after 0x1234 .reset).map (·.pc) = some 0x234 := by decide

/-- C4: a call at 0xFFE pushes the wrapped return address -/
theorem test_call_wraps : (after 0x2400 ((State.reset.setPc 0xFFE).writeByte 0x000 9)).map (fun t => (t.sp, t.stack[0], t.pc)) =
    some (1, 0x000, 0x400) := by decide

/-- C5 -/
theorem test_call_overflow : (after 0x2456 { State.reset with sp := 16 }).map (fun t => (t.mode, t.pc, t.sp)) =
    some (.halted .stackOverflow, 0x202, 16) := by decide

/-- C11 and C12 -/
theorem test_seImm : (after 0x3142 (regs 1 0x42 0 0)).map (·.pc) = some 0x204 ∧ (after 0x3143 (regs 1 0x42 0 0)).map (·.pc) = some 0x202 := by decide

/-- C13 and C14 -/
theorem test_sneImm : (after 0x4205 (regs 2 5 0 0)).map (·.pc) = some 0x202 ∧ (after 0x4206 (regs 2 5 0 0)).map (·.pc) = some 0x204 := by decide

/-- C15 and C16 -/
theorem test_seReg : (after 0x5340 (regs 3 16 4 16)).map (·.pc) = some 0x204 ∧ (after 0x5340 (regs 3 16 4 17)).map (·.pc) = some 0x202 := by decide

/-- C18 and C19 -/
theorem test_sneReg : (after 0x9340 (regs 3 16 4 17)).map (·.pc) = some 0x204 ∧ (after 0x9330 (regs 3 16 4 17)).map (·.pc) = some 0x202 := by decide

/-- C21: a taken skip at 0xFFC wraps -/
theorem test_skip_wraps : (after 0x3000 (State.reset.setPc 0xFFC)).map (·.pc) = some 0x000 := by decide

/-- C9 and C10 -/
theorem test_jpV0 : (after 0xBFFF (regs 0 1 3 0)).map (·.pc) = some 0x000 ∧ (after 0xB320 (regs 0 0 3 16)).map (·.pc) = some 0x320 := by decide

/-- A1 -/
theorem test_ldImm : (after 0x6A7B .reset).map (look 0xA) = some (0, 0x7B, 0x202) := by decide

/-- A4 -/
theorem test_addImm_wraps : (after 0x7101 (regs 1 0xFF 0xF 7)).map (look 1) = some (7, 0x00, 0x202) := by decide

/-- A6 -/
theorem test_ldReg : (after 0x8120 (regs 1 0 2 0x33)).map (look 1) = some (0, 0x33, 0x202) := by decide

/-- A7 -/
theorem test_orReg : (after 0x8121 ((regs 1 0x0F 2 0xF0).setReg 0xF 7)).map (look 1) = some (7, 0xFF, 0x202) := by decide

/-- A8 -/
theorem test_andReg : (after 0x8122 (regs 1 0x3C 2 0x0F)).map (look 1) = some (0, 0x0C, 0x202) := by decide

/-- A9 -/
theorem test_xorReg : (after 0x8123 (regs 1 0x3C 2 0x0F)).map (look 1) = some (0, 0x33, 0x202) := by decide

/-- A12 and A17 -/
theorem test_addReg : (after 0x8124 (regs 1 0xFF 2 0x01)).map (look 1) = some (1, 0x00, 0x202) ∧
    (after 0x81F4 (regs 1 0x02 0xF 0x03)).map (look 1) = some (0, 0x05, 0x202) := by decide

/-- A16: the flag wins in VF -/
theorem test_addReg_into_VF : (after 0x8F14 (regs 0xF 0xFF 1 0x01)).map (look 1) = some (1, 0x01, 0x202) := by decide

/-- A19 and A20 -/
theorem test_sub : (after 0x8125 (regs 1 5 2 7)).map (look 1) = some (0, 0xFE, 0x202) ∧
    (after 0x8125 (regs 1 5 2 5)).map (look 1) = some (1, 0x00, 0x202) := by decide

/-- A24 and A25 -/
theorem test_shr : (after 0x8126 (regs 1 0xFF 2 0x04)).map (look 1) = some (1, 0x7F, 0x202) ∧
    (after 0x8126 { regs 1 0xFF 2 0x04 with cfg := quirks }).map (look 1) = some (0, 0x02, 0x202) := by decide

/-- A27 and A28 -/
theorem test_subn : (after 0x8127 (regs 1 5 2 7)).map (look 1) = some (1, 0x02, 0x202) ∧
    (after 0x8127 (regs 1 7 2 5)).map (look 1) = some (0, 0xFE, 0x202) := by decide

/-- A30 and A32 -/
theorem test_shl : (after 0x810E (regs 1 0x81 2 0)).map (look 1) = some (1, 0x02, 0x202) ∧
    (after 0x812E { regs 1 0x00 2 0x81 with cfg := quirks }).map (look 1) = some (1, 0x02, 0x202) := by decide

/-- A35: the mask 0x00 gives 0 whatever the draw, and one draw is used up -/
theorem test_rnd : (after 0xC300 (regs 3 0x55 0 0)).map (fun t => (t.draws, t.pc)) = some (1, 0x202) := by decide

/-- X1 -/
theorem test_ldI : (after 0xA123 (State.reset.setI 0xFFFF)).map (·.i) = some 0x0123 := by decide

/-- X2 and X3 -/
theorem test_addIX : (after 0xF21E ((regs 2 2 0 0).setI 0x0FFF)).map (·.i) = some 0x1001 ∧
    (after 0xF01E ((regs 0 1 1 0).setI 0xFFFF)).map (·.i) = some 0x0000 := by decide

/-- X4 and X6 -/
theorem test_ldFX : (after 0xF029 (regs 0 0x0B 1 0)).map (·.i) = some 0x0087 ∧ (after 0xF029 (regs 0 0x1A 1 0)).map (·.i) = some 0x0082 := by decide

/-- X8 and X11: 255, and 123 wrapping from 0xFFF -/
theorem test_ldBX : (after 0xFA33 ((regs 0xA 0xFF 0 0).setI 0x300)).map (·.readBytes 0x300 3) = some [2, 5, 5] ∧
    (after 0xFA33 ((regs 0xA 0x7B 0 0).setI 0xFFF)).map (·.readBytes 0xFFF 3) = some [1, 2, 3] := by decide

/-- X13 and X14 -/
theorem test_ldMemX : (after 0xF155 ((regs 0 1 1 2).setI 0x400)).map (fun t => (t.readBytes 0x400 3, t.i)) = some ([1, 2, 0], 0x400) ∧
    (after 0xF155 { (regs 0 1 1 2).setI 0x400 with cfg := quirks }).map (·.i) = some 0x402 := by decide

/-- X17, with V3 kept, and X20 -/
theorem test_ldXMem : (after 0xF265 (((regs 3 0x99 0 0).storeBytes 0x300 [1, 2, 3, 4]).setI 0x300)).map
      (fun t => [t.getReg 0, t.getReg 1, t.getReg 2, t.getReg 3]) = some [1, 2, 3, 0x99] ∧
    (after 0xF065 { (State.reset.writeByte 0xFFF 0x42).setI 0xFFFF with cfg := quirks }).map
      (fun t => (t.getReg 0, t.i)) = some (0x42, 0) := by decide

/-- K5 and K6: the level of the low nibble's key, not the latch -/
theorem test_skp : (after 0xE59E ((regs 5 0x17 0 0).setKey 7 true)).map (·.pc) = some 0x204 ∧
    (after 0xE59E (((regs 5 0x17 0 0).setKey 7 true).setKey 7 false)).map (·.pc) = some 0x202 := by decide

/-- K3 and K4 -/
theorem test_sknp : (after 0xE5A1 (regs 5 7 0 0)).map (·.pc) = some 0x204 ∧
    (after 0xE5A1 ((regs 5 7 0 0).setKey 7 true)).map (·.pc) = some 0x202 := by decide

/-- K7 -/
theorem test_ldXDt : (after 0xF307 (State.reset.setDt 0x3C)).map (look 3) = some (0, 0x3C, 0x202) := by decide

/-- K10 -/
theorem test_ldXK : (after 0xF50A (State.reset.setKey 3 true)).map (fun t => (t.keyEdge[3], t.keys[3], t.mode, t.pc)) =
    some (false, true, .waitingForKey 5, 0x202) := by decide

/-- K16: of two presses the lowest index wins, and both latches are cleared -/
theorem test_keywait :
    (nextOf (step (((State.reset.setMode (.waitingForKey 5)).setKey 0xC true).setKey 2 true))).map
      (fun t => (t.getReg 5, t.keyEdge[0xC], t.keys[0xC], t.mode)) = some (2, false, true, .running) := by decide

/-- K8 -/
theorem test_ldDtX : (after 0xF015 (regs 0 0x3C 1 0)).map (fun t => (t.dt, t.st)) = some (0x3C, 0) := by decide

/-- K9 -/
theorem test_ldStX : (after 0xF118 (regs 1 2 0 0)).map (fun t => (t.soundActive, t.tickTimers.tickTimers.soundActive)) = some (true, false) := by decide

/-- I1 and I3: an invalid word under both policies -/
theorem test_invalid : (after 0x0123 .reset).map (fun t => (t.mode, t.pc)) = some (.halted (.invalidOpcode 0x0123), 0x202) ∧
    (after 0x0123 (.construct { Config.default with invalidOpcodeFatal := false })).map (fun t => (t.mode, t.pc, t.result)) =
      some (.running, 0x202, .ok .executed) := by decide

/-- C23: the fetch at 0xFFF takes its low byte from 0x000 -/
theorem test_fetch_wraps : (((State.reset.setPc 0xFFF).writeByte 0xFFF 0x60).writeByte 0x000 0x01).fetchWord = 0x6001 := by decide

/-- R45: glyph 0 at 0x050, glyph F ending at 0x09F, zero around them -/
theorem test_font : State.reset.readBytes 0x04F 6 = [0x00, 0xF0, 0x90, 0x90, 0x90, 0xF0] ∧ State.reset.readBytes 0x09F 2 = [0x80, 0x00] := by decide

/-! ### Witnesses: states and operands that meet the hypotheses of each statement that has some -/

/-- The reset state with a word placed at `pc`. -/
def placed (w : Word) : State := State.reset.placeWord w

/-- A halted state and a state that waits for a key. -/
def haltedState : State := State.reset.setMode (.halted .stackOverflow)

/-- A state that waits for a key, none latched. -/
def waitingState : State := State.reset.setMode (.waitingForKey 5)

/-- StepRunsTheDecodedInstruction, one clause each: halted, waiting, an instruction, an invalid word. -/
theorem witness_step_modes :
    haltedState.mode = .halted .stackOverflow ∧ waitingState.mode = .waitingForKey 5 ∧
      ((placed 0x6A7B).mode = .running ∧
        decodeWord ((placed 0x6A7B).readByte (placed 0x6A7B).pc.toNat ++
          (placed 0x6A7B).readByte ((placed 0x6A7B).pc.toNat + 1)) = some (.ldImm 0xA 0x7B)) ∧
      (State.reset.mode = .running ∧ decodeWord State.reset.fetchWord = none) := by decide

/-- ResultIsErrJustWhenHalted, both sides; EveryStepKeepsMemoryCanonical; OnlyKeySkipsReadTheKeyLevels. -/
theorem witness_step_next :
    (∃ t, step haltedState = .next t ∧ t.result = .err .stackOverflow ∧ t.mode = .halted .stackOverflow) ∧
      Canonical haltedState ∧ ∀ x, ¬ Runs haltedState (.skp x) ∧ ¬ Runs haltedState (.sknp x) :=
  ⟨⟨_, rfl, rfl, rfl⟩, rfl, fun _ => ⟨fun h => Mode.noConfusion h.1, fun h => Mode.noConfusion h.1⟩⟩

/-- InvalidWordHaltsOrIsSkipped, under each policy. -/
theorem witness_invalid :
    ∀ fatal, (State.construct { Config.default with invalidOpcodeFatal := fatal }).mode = .running ∧
      decodeWord (State.construct { Config.default with invalidOpcodeFatal := fatal }).fetchWord = none := by decide

/-- EachPartChangesOnlyByItsInstructions: a step that changes each part. -/
theorem witness_changes :
    (after 0xFA33 ((regs 0xA 0x7B 0 0).setI 0x300)).map (·.readByte 0x300) = some 1 ∧
      (after 0xD011 (sprite .default 0x80 0 0 0)).map (fun t => pixelAt t.fb 0 0) = some true ∧
      (after 0x2456 .reset).map (fun t => (t.stack[0], t.sp)) = some (0x202, 1) ∧
      (after 0xA123 .reset).map (·.i) = some 0x123 ∧
      (after 0xF055 (.construct quirks)).map (·.i) = some 1 ∧
      (after 0xF115 (regs 1 5 0 0)).map (·.dt) = some 5 ∧ (after 0xF118 (regs 1 5 0 0)).map (·.st) = some 5 ∧
      (after 0xC300 .reset).map (·.draws) = some 1 ∧
      (after 0xF50A (State.reset.setKey 3 true)).map (fun t => (t.keyEdge[3])) = some false ∧
      (after 0x8124 (regs 1 1 2 2)).map (fun t => t.getReg 1) = some 3 ∧
      (after 0xF50A .reset).map (·.mode) = some (.waitingForKey 5) ∧
      (nextOf (step (waitingState.setKey 7 true))).map (fun t => (t.mode, t.getReg 5)) = some (.running, 7) ∧
      (after 0x2456 { State.reset with sp := 16 }).map (·.mode) = some (.halted .stackOverflow) ∧
      (after 0x00EE .reset).map (·.mode) = some (.halted .stackUnderflow) ∧
      (after 0x0123 .reset).map (·.mode) = some (.halted (.invalidOpcode 0x0123)) := by decide

/-- OnlyKeySkipsReadTheKeyLevels, in `Running`. -/
theorem witness_not_a_key_skip :
    (after 0x6A7B .reset).isSome = true ∧
      ∀ x, ¬ Runs (placed 0x6A7B) (.skp x) ∧ ¬ Runs (placed 0x6A7B) (.sknp x) :=
  ⟨by decide, fun x => by
    have h : decodeWord (placed 0x6A7B).fetchWord = some (.ldImm 0xA 0x7B) := by decide
    exact ⟨fun r => absurd (h.symm.trans r.2) (by simp), fun r => absurd (h.symm.trans r.2) (by simp)⟩⟩

/-- QuiescentStatesStay: each of the three conditions. -/
theorem witness_quiescent :
    Quiescent haltedState (.err .stackOverflow) ∧ Quiescent waitingState (.ok .idle) ∧
      Quiescent (placed 0x1200) (.ok .executed) :=
  ⟨.halted _ rfl, .waiting 5 rfl (by decide), .selfJump ⟨rfl, by decide⟩⟩

/-- EncodeOfDecodeIsTheWord; DecoderAgreesWithTheOpcodeTable, both clauses. -/
theorem witness_decode :
    decodeWord 0xDFFF = some (.drw 0xF 0xF 0xF) ∧ ⟨0xF065, 0xF0FF⟩ ∈ opcodeRows ∧
      (0xFF65 : Word) &&& 0xF0FF = 0xF065 := by decide

/-- CanonicalMemoriesWithEqualBytesAreEqual, with two states that differ; the invariant's statements. -/
theorem witness_canonical :
    haltedState.cfg = waitingState.cfg ∧ Canonical haltedState ∧ Canonical waitingState ∧ haltedState ≠ waitingState ∧
      ∀ a, haltedState.readByte a = waitingState.readByte a :=
  ⟨rfl, rfl, rfl, by decide, fun _ => rfl⟩

/-- EveryTransactionSequenceKeepsMemoryCanonical. -/
theorem witness_sequence :
    Canonical .reset ∧ ∀ fmt, ∃ t rs,
      transactAll fmt [.load [0x12, 0x00], .step, .tickTimers, .reset] .reset = .next (t, rs) :=
  ⟨rfl, fun _ => ⟨_, _, rfl⟩⟩

/-- Every statement about the host's transactions: there is a snapshot format. -/
theorem witness_snapshot_format : Nonempty SnapshotFormat := nonempty_snapshotFormat

/-- ConstructionAndResetLeaveFontAndZeros: each transaction answers, and the addresses beside the font. -/
theorem witness_font_edges :
    (∀ fmt, ∃ t, transact fmt (.construct .default) haltedState = .next (t, .unit)) ∧
      (∀ fmt, ∃ t, transact fmt .reset haltedState = .next (t, .unit)) ∧
      (0x04F < 4096 ∧ 0x04F < Config.default.fontBase.val) ∧ (0x0A0 < 4096 ∧ Config.default.fontBase.val + 80 ≤ 0x0A0) :=
  ⟨fun _ => ⟨_, rfl⟩, fun _ => ⟨_, rfl⟩, by decide⟩

/-- StoredWordIsFetchedNext: both bytes stored, the low one alone, the high one alone (`X = 0`), and one left. -/
theorem witness_stored_word :
    (1 ≤ (1 : Reg).val ∧ (State.reset.setI 0x1200).i.toNat % 4096 = (State.reset.setI 0x1200).pc.toNat) ∧
      (State.reset.setI 0x201).dataAddress 0 % 4096 = (State.reset.pc.toNat + 1) % 4096 ∧
      (State.reset.setI 0x200).dataAddress 0 % 4096 = State.reset.pc.toNat ∧
      ∀ k : Reg, k ≤ 0 → 0x201 % 4096 ≠ (State.reset.setI 0x200).dataAddress k.val % 4096 := by decide

/-- R51: the word fetched after one byte of it is stored: FX55 with X = 0 over the high byte, FX33 over the low byte. -/
theorem test_stored_byte_is_fetched :
    (after 0xF055 ((((regs 0 0x6A 0 0x6A).writeByte 0x202 0x11).writeByte 0x203 0x7B).setI 0x202)).map (·.fetchWord) =
        some 0x6A7B ∧
      (after 0xF133 ((((regs 1 0x7B 0 0).writeByte 0x202 0x60).writeByte 0x203 0x11).setI 0x203)).map (·.fetchWord) =
        some 0x6001 := by decide

/-- DrawFlipsTheCoveredPixels: a sprite that covers a set pixel, and one that covers none. -/
theorem witness_draw :
    (∃ py px, SpriteCovers (dot (sprite .default 0x80 0 0 0) 0 0) 0 1 1 py px ∧
      pixelAt (dot (sprite .default 0x80 0 0 0) 0 0).fb py px = true) ∧
    (¬ ∃ py px, SpriteCovers (dot (sprite .default 0x80 0 0 0) 0 0) 0 1 0 py px ∧
      pixelAt (dot (sprite .default 0x80 0 0 0) 0 0).fb py px = true) :=
  ⟨⟨0, 0, ⟨0, by decide, 0, by decide, by decide, by decide⟩, by decide⟩,
    fun ⟨_, _, ⟨_, h, _⟩, _⟩ => absurd h (by simp)⟩

/-- DrawingTwiceRestoresTheScreen: coordinates in registers other than VF. -/
theorem witness_draw_registers : (0 : Reg) ≠ 0xF ∧ (0xE : Reg) ≠ 0xF := by decide

/-- ReturnPopsOrUnderflows, CallPushesOrOverflows, ReturnUndoesCall: the edges of `SP`. -/
theorem witness_stack :
    0 < { State.reset with sp := 1 }.sp.val ∧ { State.reset with sp := 0 }.sp.val = 0 ∧
      { State.reset with sp := 15 }.sp.val < 16 ∧ { State.reset with sp := 16 }.sp.val = 16 := by decide

/-- ReturnUndoesCall: another state with the stack the call left. -/
theorem witness_call_stack :
    (after 0x2300 .reset).map (fun t => (t.setPc 0x300).stack == t.stack && (t.setPc 0x300).sp == t.sp) = some true := by
  decide

/-- KeySkips: a register value above 15. -/
theorem witness_key_operand : (7 : Key).val = ((regs 5 0x17 0 0).getReg 5 &&& 0x0F).toNat := by decide

/-- ShiftRightSetsBitOut, ShiftLeftSetsBitOut: the source under each setting. -/
theorem witness_shift_source :
    (if (regs 1 3 2 4).cfg.shiftUsesVy then (regs 1 3 2 4).getReg 2 else (regs 1 3 2 4).getReg 1) = 3 ∧
      (if { regs 1 3 2 4 with cfg := quirks }.cfg.shiftUsesVy then (regs 1 3 2 4).getReg 2
        else (regs 1 3 2 4).getReg 1) = 4 := by decide

/-- IndexOfGlyph: an FX29 just fetched under the default font. -/
theorem witness_font_intact : FontIntact (placed 0xF029) ∧ Runs (placed 0xF029) (.ldFX 0) :=
  ⟨by unfold FontIntact; decide, rfl, by decide⟩

/-- DecimalDigitsAreStored, RegistersAreStored: an address outside the stored bytes. -/
theorem witness_index_memory :
    (∀ k, k ≤ 2 → 0x303 % 4096 ≠ (State.reset.setI 0x300).dataAddress k % 4096) ∧
      (∀ k : Reg, k ≤ 1 → 0x302 % 4096 ≠ (State.reset.setI 0x300).dataAddress k.val % 4096) :=
  ⟨fun k hk => by
    have : (State.reset.setI 0x300).dataAddress k = 0x300 + k := rfl
    omega, by decide⟩

/-- LoadRestoresStoredRegisters: another state with the memory the store left. -/
theorem witness_stored_registers :
    (after 0xF155 ((regs 0 1 1 2).setI 0x400)).map (fun t =>
      decide ((t.setReg 0 9).cfg = t.cfg ∧ (t.setReg 0 9).mem = t.mem ∧ (t.setReg 0 9).i = 0x400)) = some true := by decide

/-- KeyWaitPolls, both clauses; KeyWaitBlocksUntilAPress. -/
theorem witness_key_wait :
    waitingState.mode = .waitingForKey 5 ∧ NoKeyLatched waitingState ∧ waitingState.keys[(7 : Key)] = false ∧
      (waitingState.setKey 7 true).keyEdge[(7 : Key)] = true ∧
      ∀ j : Key, j < 7 → (waitingState.setKey 7 true).keyEdge[j] = false := by decide

/-- SetKeyLatchesNewPresses: both sides of the range. ObserversChangeNothing: both sides of `ST`. -/
theorem witness_host_inputs : 15 < 16 ∧ 16 ≤ 16 ∧ (State.reset.setSt 1).st ≠ 0 ∧ State.reset.st = 0 := by decide

/-- LoadCopiesTheRom: both sides of the limit, and addresses on both sides of the ROM, in each kind of mode. -/
theorem witness_load :
    (List.replicate 3584 (0 : Byte)).length ≤ 3584 ∧ 3584 < (List.replicate 3585 (0 : Byte)).length ∧
      (0x1FF < 4096 ∧ 0x1FF < 0x200) ∧ (0x202 < 4096 ∧ 0x200 + [(0x60 : Byte), 0x01].length ≤ 0x202) ∧
      (∃ f, haltedState.mode = .halted f) ∧ ∀ f, waitingState.mode ≠ .halted f :=
  ⟨by rw [List.length_replicate], by rw [List.length_replicate]; decide, by decide, by decide, ⟨_, rfl⟩, fun _ h => Mode.noConfusion h⟩

/-- BootFetchesTheFirstRomWord: the longest rest of a ROM. -/
theorem witness_boot : (List.replicate 3582 (0 : Byte)).length ≤ 3582 := by rw [List.length_replicate]

/-- RestoreOfSnapshotGivesTheStateBack: two different states with one configuration. -/
theorem witness_restore : Canonical haltedState ∧ waitingState.cfg = haltedState.cfg := ⟨rfl, rfl⟩

/-- HaltedIsTerminalUntilReset: steps, a load and a tick from `Halted`. -/
theorem witness_halted :
    haltedState.mode = .halted .stackOverflow ∧
      (∀ tr ∈ [Transaction.step, .load [0x60, 0x01], .tickTimers],
        tr ≠ .reset ∧ (∀ cfg, tr ≠ .construct cfg) ∧ ∀ b, tr ≠ .restore b) ∧
      ∀ fmt, ∃ t rs, transactAll fmt [.step, .load [0x60, 0x01], .tickTimers] haltedState = .next (t, rs) ∧
        Reply.step (.err .stackOverflow) ∈ rs :=
  ⟨rfl, by simp, fun _ => ⟨_, _, rfl, by decide⟩⟩

end Sys2Proof.Tests
end

section
/-! PROOFS. The MemoryBank (20_memory): what a read gives after a write, and the memory that construction and reset
leave. -/

namespace Sys2Proof.Machine

open Sys2Proof

namespace State

variable (s : State)

/-- A byte read after a byte is written, both addresses modulo 4096 (R37, R38). -/
theorem readByte_writeByte (a b : Nat) (v : Byte) :
    (s.writeByte a v).readByte b = if b % memSize = a % memSize then v else s.readByte b :=
  Memory.read_write s.cfg s.mem (a % memSize) (b % memSize) v

/-! ### A core made anew lists no byte -/

@[simp] theorem construct_mem (cfg : Config) : (construct cfg).mem = [] := rfl
@[simp] theorem constructAgain_mem (cfg : Config) : (s.constructAgain cfg).mem = [] := rfl
@[simp] theorem resetCore_mem : s.resetCore.mem = [] := rfl

end State

/-- The state that the construct transaction leaves (R135). -/
theorem transact_construct_eq_next {fmt : SnapshotFormat} {cfg : Config} {s t : State} {r : Reply}
    (h : transact fmt (.construct cfg) s = .next (t, r)) : t = s.constructAgain cfg := by
  cases h
  rfl

/-- The state that the reset transaction leaves (R136). -/
theorem transact_reset_eq_next {fmt : SnapshotFormat} {s t : State} {r : Reply}
    (h : transact fmt .reset s = .next (t, r)) : t = s.resetCore := by
  cases h
  rfl

/-- Settles O13: the rule of a read after a write, with the size of the memory written out. -/
theorem writeSetsOneByte : Obligations.WriteSetsOneByte :=
  State.readByte_writeByte

/-- Settles O15: construction and reset list no byte, alone and as transactions, and memory that lists none reads as the
font and zeros. -/
theorem constructionAndResetLeaveFontAndZeros : Obligations.ConstructionAndResetLeaveFontAndZeros := by
  intro fmt cfg s t ht
  apply freshMemory_of_mem_eq_nil
  obtain rfl | rfl | h | h := ht
  · exact State.construct_mem cfg
  · exact State.resetCore_mem s
  · rw [transact_construct_eq_next h, State.constructAgain_mem]
  · rw [transact_reset_eq_next h, State.resetCore_mem]

end Sys2Proof.Machine
end

section
/-! PROOFS. The observers of the host (40_interpreter R74, R75): what they reply, and that the state stays. -/

namespace Sys2Proof.Machine

open Sys2Proof

variable (fmt : SnapshotFormat) (s : State)

/-- The sound is on just when the sound timer runs (R75). -/
theorem State.soundActive_eq_true_iff : s.soundActive = true ↔ s.st ≠ 0 := bne_iff_ne

/-- The sound is off just when the sound timer stands at 0 (R75). -/
theorem State.soundActive_eq_false_iff : s.soundActive = false ↔ s.st = 0 := bne_eq_false_iff_eq

@[simp] theorem transact_readDisplay : transact fmt .readDisplay s = .next (s, .display s.fb) := rfl
@[simp] theorem transact_soundActive : transact fmt .soundActive s = .next (s, .sound s.soundActive) := rfl

/-- Settles O55: both observers reply from the state they are asked in and answer with that state; the reply about the
sound is read off the sound timer. -/
theorem observersChangeNothing : Obligations.ObserversChangeNothing := by
  intro fmt s
  refine ⟨transact_readDisplay fmt s, fun sounding => ?_, fun silent => ?_⟩
  · rw [transact_soundActive, s.soundActive_eq_true_iff.mpr sounding]
  · rw [transact_soundActive, s.soundActive_eq_false_iff.mpr silent]

end Sys2Proof.Machine
end

section
/-! PROOFS. The word of an instruction (30_encoding R55, R57): the encoder's word decodes to the instruction, and no other
word does. -/

namespace Sys2Proof

/-! ### A word whose fixed fields are known is made of the others -/

theorem formatA_eq_of_fieldT {w : Word} {t : Nibble} (ht : fieldT w = t) : formatA t (fieldNNN w) = w := by
  rw [← ht, formatA_fields]

theorem formatXB_eq_of_fieldT {w : Word} {t : Nibble} (ht : fieldT w = t) :
    formatXB t (fieldX w) (fieldNN w) = w := by
  rw [← ht, formatXB_fields]

theorem formatXB_eq_of_fieldT_fieldNN {w : Word} {t : Nibble} {nn : Byte} (ht : fieldT w = t) (hnn : fieldNN w = nn) :
    formatXB t (fieldX w) nn = w := by
  rw [← ht, ← hnn, formatXB_fields]

theorem formatXYN_eq_of_fieldT_fieldN {w : Word} {t n : Nibble} (ht : fieldT w = t) (hn : fieldN w = n) :
    formatXYN t (fieldX w) (fieldY w) n = w := by
  rw [← ht, ← hn, formatXYN_fields]

/-! ### The encoder undoes the decoder -/

theorem encode_of_decodeArith {w : Word} {i : Instr} (ht : fieldT w = 0x8) (h : decodeArith w = some i) :
    encode i = w := by
  unfold decodeArith at h
  split at h <;> cases h
  all_goals exact formatXYN_eq_of_fieldT_fieldN ht ‹_›

theorem encode_of_decodeMisc {w : Word} {i : Instr} (ht : fieldT w = 0xF) (h : decodeMisc w = some i) :
    encode i = w := by
  unfold decodeMisc at h
  split at h <;> cases h
  all_goals exact formatXB_eq_of_fieldT_fieldNN ht ‹_›

/-- A decoded word is the encoder's word of its instruction (R57). The cases of the match are numbered by major opcode, from
`h_1` for 0x0 to `h_16` for 0xF, and stand here by format. -/
theorem encode_of_decodeWord {w : Word} {i : Instr} (h : decodeWord w = some i) : encode i = w := by
  unfold decodeWord at h
  split at h
  case h_1 =>
    split at h
    · cases h; exact Eq.symm ‹w = 0x00E0#16›
    · split at h <;> cases h
      exact Eq.symm ‹w = 0x00EE#16›
  case h_2 ht | h_3 ht | h_11 ht | h_12 ht =>
    cases h
    exact formatA_eq_of_fieldT ht
  case h_4 ht | h_5 ht | h_7 ht | h_8 ht | h_13 ht =>
    cases h
    exact formatXB_eq_of_fieldT ht
  case h_6 ht | h_10 ht =>
    split at h <;> cases h
    exact formatXYN_eq_of_fieldT_fieldN ht ‹fieldN w = 0#4›
  case h_14 ht =>
    cases h
    exact formatXYN_eq_of_fieldT_fieldN ht rfl
  case h_15 ht =>
    split at h
    · cases h; exact formatXB_eq_of_fieldT_fieldNN ht ‹fieldNN w = 0x9E#8›
    · split at h <;> cases h
      exact formatXB_eq_of_fieldT_fieldNN ht ‹fieldNN w = 0xA1#8›
  case h_9 ht => exact encode_of_decodeArith ht h
  case h_16 ht => exact encode_of_decodeMisc ht h
  case h_17 => cases h

/-- The encoder's word of an instruction decodes to it: the fields of its format select the decoder's branch (R57). -/
theorem decodeWord_encode (i : Instr) : decodeWord (encode i) = some i := by
  cases i
  case cls | ret => decide
  case jp | call | ldI | jpV0 => simp [encode, decodeWord, fieldT_formatA, fieldNNN_formatA]
  case seReg | sneReg | drw =>
    simp [encode, decodeWord, fieldT_formatXYN, fieldX_formatXYN, fieldY_formatXYN, fieldN_formatXYN]
  case ldReg | orReg | andReg | xorReg | addReg | sub | shr | subn | shl =>
    simp [encode, decodeWord, decodeArith, fieldT_formatXYN, fieldX_formatXYN, fieldY_formatXYN, fieldN_formatXYN]
  case ldXDt | ldXK | ldDtX | ldStX | addIX | ldFX | ldBX | ldMemX | ldXMem =>
    simp [encode, decodeWord, decodeMisc, fieldT_formatXB, fieldX_formatXB, fieldNN_formatXB]
  all_goals simp [encode, decodeWord, fieldT_formatXB, fieldX_formatXB, fieldNN_formatXB]

/-- A word decodes to an instruction just when it is the encoder's word of it. -/
theorem decodeWord_eq_some_iff {w : Word} {i : Instr} : decodeWord w = some i ↔ encode i = w :=
  ⟨encode_of_decodeWord, fun h => h ▸ decodeWord_encode i⟩

/-- The encoder's word of an instruction, however it is written, is the one word of the instruction. -/
theorem Machine.isWordOf_of_encode_eq {w : Word} {i : Instr} (h : encode i = w) : IsWordOf w i := fun u => by
  rw [decodeWord_eq_some_iff, h, eq_comm]

end Sys2Proof
end

section
/-! PROOFS. Frames: what an operation leaves unchanged, and how the frames of operations in a row make one. -/

namespace Sys2Proof.Machine

open Sys2Proof

variable {s t u : State} {changed changed' : List Part}

theorem Unchanged.trans {p : Part} (h : Unchanged s t p) (h' : Unchanged t u p) : Unchanged s u p := by
  cases p
  case memory => exact fun a => (h' a).trans (h a)
  all_goals exact Eq.trans h' h

/-- Two operations in a row change what one or the other does. -/
theorem KeepsAllBut.trans (h : KeepsAllBut changed s t) (h' : KeepsAllBut changed' t u) :
    KeepsAllBut (changed' ++ changed) s u := by
  obtain ⟨hcfg, hkeys, hparts⟩ := h
  obtain ⟨hcfg', hkeys', hparts'⟩ := h'
  refine ⟨hcfg'.trans hcfg, hkeys'.trans hkeys, fun p hp => ?_⟩
  rw [List.mem_append, not_or] at hp
  obtain ⟨hp', hp⟩ := hp
  exact (hparts p hp).trans (hparts' p hp')

/-- Recording the result changes nothing a frame speaks of. -/
theorem keepsAllBut_returning (s : State) (r : StepResult) : KeepsAllBut [] s (s.returning r) := by
  refine ⟨rfl, rfl, fun p _ => ?_⟩
  cases p
  case memory => exact fun _ => rfl
  all_goals rfl

theorem keepsAllBut_setPc (s : State) (a : Addr) : KeepsAllBut [.pc] s (s.setPc a) := by
  refine ⟨rfl, rfl, fun p hp => ?_⟩
  cases p
  case pc => simp at hp
  case memory => exact fun _ => rfl
  all_goals rfl

/-- How an instruction that transfers control ends: it writes `pc` and records its result. -/
theorem keepsAllBut_setPc_returning (s : State) (a : Addr) (r : StepResult) :
    KeepsAllBut [.pc] s ((s.setPc a).returning r) :=
  (keepsAllBut_setPc s a).trans (keepsAllBut_returning _ r)

/-- A pop moves the stack pointer alone: the released entry stays where it was (R26). -/
theorem keepsAllBut_of_pop {a : Addr} (h : s.pop = some (a, t)) : KeepsAllBut [.stackPointer] s t := by
  unfold State.pop at h
  split at h <;> cases h
  refine ⟨rfl, rfl, fun p hp => ?_⟩
  cases p
  case stackPointer => simp at hp
  case memory => exact fun _ => rfl
  all_goals rfl

theorem keepsAllBut_of_push {a : Addr} (h : s.push a = some t) : KeepsAllBut [.stackEntries, .stackPointer] s t := by
  unfold State.push at h
  split at h <;> cases h
  refine ⟨rfl, rfl, fun p hp => ?_⟩
  cases p
  case stackEntries | stackPointer => simp at hp
  case memory => exact fun _ => rfl
  all_goals rfl

end Sys2Proof.Machine
end

section
/-! PROOFS. Control transfer (42_control_flow): return, jump, call, and the skips on bytes. -/

namespace Sys2Proof.Machine

open Sys2Proof

variable {s t : State}

/-! ### Jumps and skips: `pc` alone -/

/-- The answer is a next state with result `Ok(Executed)` that differs from `s` in its `pc`, now `a`, alone. -/
def SetsPcAlone (s : State) (a : Addr) (answer : Answer) : Prop :=
  ∃ t, answer = .next t ∧ t.result = .ok .executed ∧ t.pc = a ∧ KeepsAllBut [.pc] s t

theorem emit_setPc_setsPcAlone (s : State) (a : Addr) : SetsPcAlone s a (emit .executed (s.setPc a)) :=
  ⟨_, emit_eq _ _, rfl, rfl, keepsAllBut_setPc_returning s a _⟩

/-- A skip takes `pc` 2 further when its condition holds (R70). -/
theorem emit_skipIf_setsPcAlone (s : State) (c : Bool) :
    SetsPcAlone s (if c then s.pc + 2 else s.pc) (emit .executed (s.skipIf c)) := by
  rw [State.skipIf_eq]
  exact emit_setPc_setsPcAlone s _

theorem emit_skipIf_beq_setsPcAlone (s : State) (b c : Byte) :
    SetsPcAlone s (if b = c then s.pc + 2 else s.pc) (emit .executed (s.skipIf (b == c))) := by
  simpa only [beq_iff_eq] using emit_skipIf_setsPcAlone s (b == c)

theorem emit_skipIf_bne_setsPcAlone (s : State) (b c : Byte) :
    SetsPcAlone s (if b = c then s.pc else s.pc + 2) (emit .executed (s.skipIf (b != c))) := by
  simpa only [bne_iff_ne, ite_not] using emit_skipIf_setsPcAlone s (b != c)

/-- Settles O26: the jump writes `pc` and nothing else. -/
theorem jumpSetsThePc : Obligations.JumpSetsThePc := fun s nnn =>
  ⟨isWordOf_of_encode_eq (formatA_eq_ofNat 0x1 nnn), emit_setPc_setsPcAlone s nnn⟩

/-- Settles O30: a skip on an immediate byte compares it with the register, for equality or for difference. -/
theorem immediateSkips : Obligations.ImmediateSkips := fun s x nn =>
  ⟨⟨isWordOf_of_encode_eq (formatXB_eq_ofNat 0x3 x nn), emit_skipIf_beq_setsPcAlone s (s.getReg x) nn⟩,
    isWordOf_of_encode_eq (formatXB_eq_ofNat 0x4 x nn), emit_skipIf_bne_setsPcAlone s (s.getReg x) nn⟩

/-- Settles O31: a skip on two registers compares their bytes, for equality or for difference. -/
theorem registerSkips : Obligations.RegisterSkips := fun s x y =>
  ⟨⟨isWordOf_of_encode_eq (formatXYN_eq_ofNat 0x5 x y 0x0),
      emit_skipIf_beq_setsPcAlone s (s.getReg x) (s.getReg y)⟩,
    isWordOf_of_encode_eq (formatXYN_eq_ofNat 0x9 x y 0x0),
    emit_skipIf_bne_setsPcAlone s (s.getReg x) (s.getReg y)⟩

/-! ### Call and return, by what the stack operation gives -/

theorem exec_ret_of_pop {a : Addr} (h : s.pop = some (a, t)) :
    exec .ret s = .next ((t.setPc a).returning (.ok .executed)) := by
  simp [exec, execRet, h, emit_eq]

theorem exec_ret_of_underflow (h : s.pop = none) :
    exec .ret s = .next ((s.setMode (.halted .stackUnderflow)).returning (.err .stackUnderflow)) := by
  simp [exec, execRet, h, raiseFault_eq]

theorem exec_call_of_push {nnn : Addr} (h : s.push s.pc = some t) :
    exec (.call nnn) s = .next ((t.setPc nnn).returning (.ok .executed)) := by
  simp [exec, execCall, h, emit_eq]

theorem exec_call_of_overflow {nnn : Addr} (h : s.push s.pc = none) :
    exec (.call nnn) s = .next ((s.setMode (.halted .stackOverflow)).returning (.err .stackOverflow)) := by
  simp [exec, execCall, h, raiseFault_eq]

/-- Settles O25: a return goes where the pop says, or takes the underflow of an empty stack. -/
theorem returnPopsOrUnderflows : Obligations.ReturnPopsOrUnderflows := by
  refine ⟨isWordOf_of_encode_eq rfl, fun s => ⟨fun hpos => ?_, fun hempty => ?_⟩⟩
  · have hpop := s.pop_of_pos hpos
    exact ⟨_, exec_ret_of_pop hpop, rfl, rfl, Vector.getElem?_eq_getElem _,
      (keepsAllBut_of_pop hpop).trans (keepsAllBut_setPc_returning _ _ _)⟩
  · exact exec_ret_of_underflow (s.pop_of_empty hempty)

/-- Settles O27: a call writes the old `pc` at the old stack pointer and jumps, or takes the overflow of a full stack. -/
theorem callPushesOrOverflows : Obligations.CallPushesOrOverflows := by
  intro s nnn
  refine ⟨isWordOf_of_encode_eq (formatA_eq_ofNat 0x2 nnn), fun hfree => ?_, fun hfull => ?_⟩
  · have hpush := s.push_of_lt s.pc hfree
    exact ⟨_, exec_call_of_push hpush, rfl, rfl, rfl, Vector.getElem?_set_self hfree,
      fun k hk => Vector.getElem_set_ne hfree k.isLt hk.symm,
      (keepsAllBut_of_push hpush).trans (keepsAllBut_setPc_returning _ _ _)⟩
  · exact exec_call_of_overflow (s.push_of_full s.pc hfull)

end Sys2Proof.Machine
end

section
/-! PROOFS. Register loads and arithmetic (43_alu): what a write to one register gives and keeps, and the instructions that
do no more than that. -/

namespace Sys2Proof.Machine

open Sys2Proof

/-! ### The write of one register, and its frame -/

/-- A write gives its register the byte and leaves every other register (R15). -/
theorem regBecomes_setReg (s : State) (x : Reg) (b : Byte) : RegBecomes s (s.setReg x b) x b := by
  refine ⟨?_, fun z hz => ?_⟩
  · rw [State.getReg_setReg, if_pos rfl]
  · rw [State.getReg_setReg, if_neg hz]

theorem keepsAllBut_setReg (s : State) (x : Reg) (b : Byte) : KeepsAllBut [.registers] s (s.setReg x b) := by
  refine ⟨rfl, rfl, fun p hp => ?_⟩
  cases p
  case registers => simp at hp
  case memory => exact fun _ => rfl
  all_goals rfl

/-! ### Loads and the addition of a byte: one register alone -/

/-- The answer is a next state with result `Ok(Executed)` that differs from `s` in `V[x]`, now `b`, alone. -/
def SetsRegAlone (s : State) (x : Reg) (b : Byte) (answer : Answer) : Prop :=
  ∃ t, answer = .next t ∧ t.result = .ok .executed ∧ RegBecomes s t x b ∧ KeepsAllBut [.registers] s t

theorem emit_setReg_setsRegAlone (s : State) (x : Reg) (b : Byte) :
    SetsRegAlone s x b (emit .executed (s.setReg x b)) :=
  ⟨_, emit_eq _ _, rfl, regBecomes_setReg s x b, (keepsAllBut_setReg s x b).trans (keepsAllBut_returning _ _)⟩

/-- Settles O33: a load writes its byte, or the byte of the other register, to `V[x]` and nothing else. -/
theorem registerLoads : Obligations.RegisterLoads := fun s x y nn =>
  ⟨⟨isWordOf_of_encode_eq (formatXB_eq_ofNat 0x6 x nn), emit_setReg_setsRegAlone s x nn⟩,
    isWordOf_of_encode_eq (formatXYN_eq_ofNat 0x8 x y 0x0), emit_setReg_setsRegAlone s x (s.getReg y)⟩

/-- Settles O34: the sum of bytes is the sum of their numbers modulo 256, and `V[x]` alone is written, also when it is
VF. -/
theorem addImmediateWrapsWithoutFlag : Obligations.AddImmediateWrapsWithoutFlag := by
  intro s x nn
  refine ⟨isWordOf_of_encode_eq (formatXB_eq_ofNat 0x7 x nn), ?_⟩
  rw [← BitVec.add_def]
  exact emit_setReg_setsRegAlone s x (s.getReg x + nn)

end Sys2Proof.Machine
end

section
/-! PROOFS. The index register (44_index_memory): the frame of a write to `I`, and the load of an address. -/

namespace Sys2Proof.Machine

open Sys2Proof

theorem keepsAllBut_setI (s : State) (a : Word) : KeepsAllBut [.index] s (s.setI a) := by
  refine ⟨rfl, rfl, fun p hp => ?_⟩
  cases p
  case index => simp at hp
  case memory => exact fun _ => rfl
  all_goals rfl

/-- Settles O42: the load writes the zero-extended address to `I`, which keeps its number, and nothing else. -/
theorem loadIndex : Obligations.LoadIndex := fun s nnn =>
  ⟨isWordOf_of_encode_eq (formatA_eq_ofNat 0xA nnn), _, emit_eq _ _, rfl, BitVec.toNat_setWidth_of_le (by decide),
    (keepsAllBut_setI s _).trans (keepsAllBut_returning _ _)⟩

end Sys2Proof.Machine
end

section
/-! PROOFS. The timers (45_keys_timers): the frames of a write to the delay and to the sound timer, and the transfers between
a register and a timer. -/

namespace Sys2Proof.Machine

open Sys2Proof

theorem keepsAllBut_setDt (s : State) (b : Byte) : KeepsAllBut [.delayTimer] s (s.setDt b) := by
  refine ⟨rfl, rfl, fun p hp => ?_⟩
  cases p
  case delayTimer => simp at hp
  case memory => exact fun _ => rfl
  all_goals rfl

theorem keepsAllBut_setSt (s : State) (b : Byte) : KeepsAllBut [.soundTimer] s (s.setSt b) := by
  refine ⟨rfl, rfl, fun p hp => ?_⟩
  cases p
  case soundTimer => simp at hp
  case memory => exact fun _ => rfl
  all_goals rfl

/-- The word of a row whose low byte is part of the opcode, as the row's fixed bits plus the register's number in its
field (R55). -/
theorem formatXB_eq_ofNat_fixed_add_reg (t : Nibble) (x : Reg) (nn : Byte) :
    formatXB t x nn = BitVec.ofNat 16 (4096 * t.toNat + nn.toNat + 256 * x.val) := by
  rw [formatXB_eq_ofNat, Nat.add_right_comm]

/-- Settles O49: the read of the delay timer is a register load, and each write sets its timer alone. -/
theorem timerTransfers : Obligations.TimerTransfers := fun s x =>
  ⟨⟨isWordOf_of_encode_eq (formatXB_eq_ofNat_fixed_add_reg 0xF x 0x07), emit_setReg_setsRegAlone s x s.dt⟩,
    ⟨isWordOf_of_encode_eq (formatXB_eq_ofNat_fixed_add_reg 0xF x 0x15), _, emit_eq _ _, rfl, State.setDt_dt s _,
      (keepsAllBut_setDt s _).trans (keepsAllBut_returning _ _)⟩,
    isWordOf_of_encode_eq (formatXB_eq_ofNat_fixed_add_reg 0xF x 0x18), _, emit_eq _ _, rfl, State.setSt_st s _,
    (keepsAllBut_setSt s _).trans (keepsAllBut_returning _ _)⟩

end Sys2Proof.Machine
end

section
/-! PROOFS. The decoder against the encoder, the opcode table and the list of invalid words (30_encoding R57, R58, R59). -/

namespace Sys2Proof

/-! ### Bytes in memory order -/

theorem wordOfBytes_highByte_lowByte (w : Word) : wordOfBytes (highByte w) (lowByte w) = w := by
  rw [wordOfBytes, highByte, lowByte, BitVec.extractLsb'_append_extractLsb'_eq_extractLsb' (by rfl)]
  simp

/-- A word in memory order is decoded as the word is, and the bytes after it are left (R39, R53). -/
theorem decodeBytes_bytesOfWord_append {w : Word} {i : Instr} (h : decodeWord w = some i) (rest : List Byte) :
    decodeBytes (bytesOfWord w ++ rest) = .instr i rest := by
  simp [bytesOfWord, decodeBytes, wordOfBytes_highByte_lowByte, h]

/-- Settles O9: the encoder's word decodes to its instruction, and the bytes of a word in memory order make the word again. -/
theorem decodeOfEncodeIsTheInstruction : Obligations.DecodeOfEncodeIsTheInstruction := fun i rest =>
  ⟨decodeWord_encode i, decodeBytes_bytesOfWord_append (decodeWord_encode i) rest⟩

/-- Settles O10: the encoder undoes the decoder. -/
theorem encodeOfDecodeIsTheWord : Obligations.EncodeOfDecodeIsTheWord := fun _ _ => encode_of_decodeWord

/-- Settles O8: each word is written out, so the decoder computes its instruction. -/
theorem sampleWordsDecode : Obligations.SampleWordsDecode := by
  unfold Obligations.SampleWordsDecode
  decide

/-! ### The rows of the opcode table -/

/-- The decoder reads an instruction of the row that selects the word: the row fixes the fields the decoder branches on
(R57, R58). -/
theorem map_row_decodeWord_of_selects {w : Word} {j : Instr} (h : j.row.selects w = true) :
    (decodeWord w).map Instr.row = some j.row := by
  cases j
  case cls | ret =>
    rw [selects_all h]
    rfl
  case jp | call | seImm | sneImm | ldImm | addImm | ldI | jpV0 | rnd | drw =>
    rw [decodeWord, selects_T h]
    rfl
  case seReg | sneReg =>
    obtain ⟨ht, hn⟩ := selects_TN h
    rw [decodeWord, ht, hn]
    rfl
  case ldReg | orReg | andReg | xorReg | addReg | sub | shr | subn | shl =>
    obtain ⟨ht, hn⟩ := selects_TN h
    rw [decodeWord, decodeArith, ht, hn]
    rfl
  case skp | sknp =>
    obtain ⟨ht, hnn⟩ := selects_TNN h
    rw [decodeWord, ht, hnn]
    rfl
  case ldXDt | ldXK | ldDtX | ldStX | addIX | ldFX | ldBX | ldMemX | ldXMem =>
    obtain ⟨ht, hnn⟩ := selects_TNN h
    rw [decodeWord, decodeMisc, ht, hnn]
    rfl

/-- The encoder's word of an instruction is selected by the instruction's row, one of the 34 (R58). -/
theorem row_selects_encode : ∀ i : Instr, Laws.EncodedWord.Statement i
  | .cls => Laws.EncodedWord.cls
  | .ret => Laws.EncodedWord.ret
  | .jp nnn => Laws.EncodedWord.jp nnn
  | .call nnn => Laws.EncodedWord.call nnn
  | .seImm x nn => Laws.EncodedWord.seImm x nn
  | .sneImm x nn => Laws.EncodedWord.sneImm x nn
  | .seReg x y => Laws.EncodedWord.seReg x y
  | .ldImm x nn => Laws.EncodedWord.ldImm x nn
  | .addImm x nn => Laws.EncodedWord.addImm x nn
  | .ldReg x y => Laws.EncodedWord.ldReg x y
  | .orReg x y => Laws.EncodedWord.orReg x y
  | .andReg x y => Laws.EncodedWord.andReg x y
  | .xorReg x y => Laws.EncodedWord.xorReg x y
  | .addReg x y => Laws.EncodedWord.addReg x y
  | .sub x y => Laws.EncodedWord.sub x y
  | .shr x y => Laws.EncodedWord.shr x y
  | .subn x y => Laws.EncodedWord.subn x y
  | .shl x y => Laws.EncodedWord.shl x y
  | .sneReg x y => Laws.EncodedWord.sneReg x y
  | .ldI nnn => Laws.EncodedWord.ldI nnn
  | .jpV0 nnn => Laws.EncodedWord.jpV0 nnn
  | .rnd x nn => Laws.EncodedWord.rnd x nn
  | .drw x y n => Laws.EncodedWord.drw x y n
  | .skp x => Laws.EncodedWord.skp x
  | .sknp x => Laws.EncodedWord.sknp x
  | .ldXDt x => Laws.EncodedWord.ldXDt x
  | .ldXK x => Laws.EncodedWord.ldXK x
  | .ldDtX x => Laws.EncodedWord.ldDtX x
  | .ldStX x => Laws.EncodedWord.ldStX x
  | .addIX x => Laws.EncodedWord.addIX x
  | .ldFX x => Laws.EncodedWord.ldFX x
  | .ldBX x => Laws.EncodedWord.ldBX x
  | .ldMemX x => Laws.EncodedWord.ldMemX x
  | .ldXMem x => Laws.EncodedWord.ldXMem x

/-- A row selects a word just when the word under the row's mask is the row's bits (R58). -/
theorem selects_iff {r : OpcodeRow} {w : Word} : r.selects w = true ↔ w &&& r.mask = r.bits := beq_iff_eq

/-- Settles O11: a row that selects a word is the row of the decoded instruction, and a decoded word is the encoder's, which
its row selects. -/
theorem decoderAgreesWithTheOpcodeTable : Obligations.DecoderAgreesWithTheOpcodeTable := by
  refine fun w => ⟨fun r hr hsel => ?_, fun i hi => ?_⟩
  · obtain ⟨j, -, rfl⟩ := List.mem_map.mp hr
    exact Option.map_eq_some_iff.mp (map_row_decodeWord_of_selects (selects_iff.mpr hsel))
  · obtain ⟨hsel, hrow⟩ := row_selects_encode i
    rw [encode_of_decodeWord hi] at hsel
    exact ⟨hrow, selects_iff.mp hsel⟩

/-! ### The invalid words -/

theorem toNat_fieldT (w : Word) : (fieldT w).toNat = w.toNat / 4096 := by
  have := w.isLt
  rw [fieldT, BitVec.extractLsb'_toNat, Nat.shiftRight_eq_div_pow]
  omega

theorem toNat_fieldN (w : Word) : (fieldN w).toNat = w.toNat % 16 := by
  simp [fieldN]

theorem toNat_fieldNN (w : Word) : (fieldNN w).toNat = w.toNat % 256 := by
  simp [fieldNN]

/-- In each branch of the decoder the field's value decides both sides; the default branch leaves the other values. -/
theorem decodeArith_eq_none_iff (w : Word) :
    decodeArith w = none ↔ (fieldN w).toNat ∈ [0x8, 0x9, 0xA, 0xB, 0xC, 0xD, 0xF] := by
  have hlt := (fieldN w).isLt
  unfold decodeArith
  split
  case h_10 =>
    simp only [BitVec.toNat_eq, BitVec.toNat_ofNat, imp_false] at *
    simp only [List.mem_cons, List.not_mem_nil, or_false, true_iff]
    omega
  all_goals simp_all

theorem decodeMisc_eq_none_iff (w : Word) :
    decodeMisc w = none ↔ (fieldNN w).toNat ∉ [0x07, 0x0A, 0x15, 0x18, 0x1E, 0x29, 0x33, 0x55, 0x65] := by
  unfold decodeMisc
  split
  case h_10 => simp_all [BitVec.toNat_eq]
  all_goals simp_all

theorem decodeWord_eq_none_iff (w : Word) : decodeWord w = none ↔
    (fieldT w).toNat = 0x0 ∧ w ≠ 0x00E0 ∧ w ≠ 0x00EE ∨
    ((fieldT w).toNat = 0x5 ∨ (fieldT w).toNat = 0x9) ∧ (fieldN w).toNat ≠ 0 ∨
    (fieldT w).toNat = 0x8 ∧ decodeArith w = none ∨
    (fieldT w).toNat = 0xE ∧ (fieldNN w).toNat ∉ [0x9E, 0xA1] ∨
    (fieldT w).toNat = 0xF ∧ decodeMisc w = none := by
  have hlt := (fieldT w).isLt
  unfold decodeWord
  split
  case h_17 =>
    simp only [BitVec.toNat_eq, BitVec.toNat_ofNat, imp_false] at *
    omega
  all_goals simp_all [BitVec.toNat_eq, ite_eq_iff]

/-- Settles O12: no word but these reaches an invalid branch of the decoder, and the fields it branches on are these digits
of the word. -/
theorem invalidWordsAreThoseListed : Obligations.InvalidWordsAreThoseListed := by
  intro w
  rw [decodeWord_eq_none_iff, decodeArith_eq_none_iff, decodeMisc_eq_none_iff, toNat_fieldT, toNat_fieldN, toNat_fieldNN]

end Sys2Proof
end

section
/-! PROOFS. Frames of the shared operations that the earlier parts do not need: one lemma per operation. -/

namespace Sys2Proof.Machine

open Sys2Proof

variable {s t : State} {changed changed' : List Part}

/-- A frame may name more parts than change. -/
theorem KeepsAllBut.mono (h : KeepsAllBut changed s t) (hsub : changed ⊆ changed') : KeepsAllBut changed' s t := by
  obtain ⟨hcfg, hkeys, hparts⟩ := h
  exact ⟨hcfg, hkeys, fun p hp => hparts p (mt (@hsub p) hp)⟩

/-- The frame of an operation and then of the record of its result. -/
theorem KeepsAllBut.returning (h : KeepsAllBut changed s t) (r : StepResult) : KeepsAllBut changed s (t.returning r) :=
  h.trans (keepsAllBut_returning t r)

variable (s)

theorem keepsAllBut_setFb (fb : FrameBuffer) : KeepsAllBut [.display] s (s.setFb fb) :=
  ⟨rfl, rfl, fun p hp => by cases p <;> simp_all [Unchanged]⟩

theorem keepsAllBut_setMode (m : Mode) : KeepsAllBut [.mode] s (s.setMode m) :=
  ⟨rfl, rfl, fun p hp => by cases p <;> simp_all [Unchanged]⟩

theorem keepsAllBut_clearLatch : KeepsAllBut [.latch] s s.clearLatch :=
  ⟨rfl, rfl, fun p hp => by cases p <;> simp_all [Unchanged]⟩

theorem keepsAllBut_countDraw : KeepsAllBut [.draws] s s.countDraw :=
  ⟨rfl, rfl, fun p hp => by cases p <;> simp_all [Unchanged]⟩

theorem keepsAllBut_setRegAndFlag (x : Reg) (b : Byte) (f : Bool) :
    KeepsAllBut [.registers] s (s.setRegAndFlag x b f) :=
  ⟨rfl, rfl, fun p hp => by cases p <;> simp_all [Unchanged]⟩

theorem keepsAllBut_storeBytes (a : Nat) (bs : List Byte) : KeepsAllBut [.memory] s (s.storeBytes a bs) :=
  ⟨by simp, by simp, fun p hp => by cases p <;> simp_all [Unchanged]⟩

theorem keepsAllBut_setRegsFrom (k : Nat) (bs : List Byte) : KeepsAllBut [.registers] s (s.setRegsFrom k bs) :=
  ⟨by simp, by simp, fun p hp => by cases p <;> simp_all [Unchanged, State.readByte]⟩

theorem keepsAllBut_skipIf (c : Bool) : KeepsAllBut [.pc] s (s.skipIf c) := by
  rw [State.skipIf_eq]
  exact keepsAllBut_setPc s _

theorem keepsAllBut_advanceI (x : Reg) : KeepsAllBut [.index] s (s.advanceI x) := by
  rw [State.advanceI_eq]
  exact keepsAllBut_setI s _

/-- Without `LS_INCREMENTS_I` the advance changes nothing (R108, R109). -/
theorem State.advanceI_of_not_increments {s : State} (h : s.cfg.lsIncrementsI = false) (x : Reg) : s.advanceI x = s := by
  simp [State.advanceI, h]

end Sys2Proof.Machine
end

section
/-! PROOFS. Arithmetic and logic (43_alu): a result with the flag that wins over it, the bitwise operations, and random. -/

namespace Sys2Proof.Machine

open Sys2Proof

/-! ### A register and the flag -/

/-- The flag is written last, so it wins in VF (R17). -/
theorem regAndFlagBecome_setRegAndFlag (s : State) (x : Reg) (b : Byte) (f : Bool) :
    RegAndFlagBecome s (s.setRegAndFlag x b f) x b (flagByte f) := by
  simp only [State.setRegAndFlag, State.setFlag]
  refine ⟨?_, fun hx => ?_, fun z hz hzF => ?_⟩
  · rw [State.getReg_setReg, if_pos rfl]
  · rw [State.getReg_setReg, if_neg hx, State.getReg_setReg, if_pos rfl]
  · rw [State.getReg_setReg, if_neg hzF, State.getReg_setReg, if_neg hz]

/-- The answer is a next state with result `Ok(Executed)` that differs from `s` in `V[x]`, now `r`, and VF, now `f`, which
wins, alone. -/
def SetsRegAndFlagAlone (s : State) (x : Reg) (r f : Byte) (answer : Answer) : Prop :=
  ∃ t, answer = .next t ∧ t.result = .ok .executed ∧ RegAndFlagBecome s t x r f ∧ KeepsAllBut [.registers] s t

theorem emit_setRegAndFlag_setsRegAndFlagAlone (s : State) (x : Reg) {b r f : Byte} {c : Bool} (hr : b = r)
    (hf : flagByte c = f) : SetsRegAndFlagAlone s x r f (emit .executed (s.setRegAndFlag x b c)) := by
  subst hr hf
  exact ⟨_, emit_eq _ _, rfl, regAndFlagBecome_setRegAndFlag s x b c, (keepsAllBut_setRegAndFlag s x b c).returning _⟩

/-! ### The flags and the results as numbers -/

theorem flagByte_decide (c : Prop) [Decidable c] : flagByte (decide c) = if c then 1 else 0 := by
  simp [flagByte]

theorem byte_sub_eq_ofNat (p q : Byte) : p - q = BitVec.ofNat 8 (256 + p.toNat - q.toNat) := by
  have hq := q.isLt
  rw [BitVec.sub_def]
  congr 1
  omega

theorem byte_shiftRight_one (b : Byte) : b >>> 1 = BitVec.ofNat 8 (b.toNat / 2) := by
  have hb := b.isLt
  apply BitVec.eq_of_toNat_eq
  rw [BitVec.toNat_ushiftRight, Nat.shiftRight_eq_div_pow, BitVec.toNat_ofNat]
  omega

theorem byte_shiftLeft_one (b : Byte) : b <<< 1 = BitVec.ofNat 8 (b.toNat * 2) := by
  apply BitVec.eq_of_toNat_eq
  rw [BitVec.toNat_shiftLeft, Nat.shiftLeft_eq, BitVec.toNat_ofNat]

/-- Checked for each of the 256 bytes, as is the bit on the left. -/
theorem flagByte_bitOutRight (b : Byte) : flagByte (bitOutRight b) = BitVec.ofNat 8 (b.toNat % 2) := by
  revert b
  decide

theorem flagByte_bitOutLeft (b : Byte) : flagByte (bitOutLeft b) = BitVec.ofNat 8 (b.toNat / 128) := by
  revert b
  decide

/-- Settles O36: the sum of bytes is the sum of their numbers modulo 256, and the carry says that it exceeds 255. -/
theorem addSetsCarry : Obligations.AddSetsCarry := fun s x _ =>
  emit_setRegAndFlag_setsRegAndFlagAlone s x (BitVec.add_def _ _) (flagByte_decide _)

/-- Settles O37: the difference modulo 256, and no borrow when the subtrahend is not the larger. -/
theorem subtractSetsNoBorrow : Obligations.SubtractSetsNoBorrow := fun s x _ =>
  emit_setRegAndFlag_setsRegAndFlagAlone s x (byte_sub_eq_ofNat _ _) (flagByte_decide _)

/-- Settles O38: as O37 with the operands exchanged. -/
theorem reverseSubtractSetsNoBorrow : Obligations.ReverseSubtractSetsNoBorrow := fun s x _ =>
  emit_setRegAndFlag_setsRegAndFlagAlone s x (byte_sub_eq_ofNat _ _) (flagByte_decide _)

/-- Settles O39: the source by the switch, halved, and its lowest bit. -/
theorem shiftRightSetsBitOut : Obligations.ShiftRightSetsBitOut := by
  rintro s x y _ rfl
  exact emit_setRegAndFlag_setsRegAndFlagAlone s x (byte_shiftRight_one _) (flagByte_bitOutRight _)

/-- Settles O40: the source by the switch, doubled modulo 256, and its highest bit. -/
theorem shiftLeftSetsBitOut : Obligations.ShiftLeftSetsBitOut := by
  rintro s x y _ rfl
  exact emit_setRegAndFlag_setsRegAndFlagAlone s x (byte_shiftLeft_one _) (flagByte_bitOutLeft _)

/-! ### One register alone -/

/-- The answer of a register write, with a fact about the byte written. -/
theorem SetsRegAlone.exists_byte {s : State} {x : Reg} {b : Byte} {answer : Answer} {P : Byte → Prop}
    (h : SetsRegAlone s x b answer) (hb : P b) :
    ∃ t b, answer = .next t ∧ t.result = .ok .executed ∧ RegBecomes s t x b ∧ P b ∧ KeepsAllBut [.registers] s t := by
  obtain ⟨t, hans, hres, hreg, hkeeps⟩ := h
  exact ⟨t, b, hans, hres, hreg, hb, hkeeps⟩

/-- Settles O35: each operation writes its byte to `V[x]` alone, and the byte's bits are the operation's on bits. -/
theorem bitwiseOperations : Obligations.BitwiseOperations := fun s x _ =>
  ⟨(emit_setReg_setsRegAlone s x _).exists_byte fun _ => BitVec.getLsbD_or,
    (emit_setReg_setsRegAlone s x _).exists_byte fun _ => BitVec.getLsbD_and,
    (emit_setReg_setsRegAlone s x _).exists_byte fun _ => BitVec.getLsbD_xor⟩

/-- Settles O41: the masked byte is written and the draw counted; the mask 0 leaves no bit of it. -/
theorem randomIsMaskedAndUsedUp : Obligations.RandomIsMaskedAndUsedUp := by
  intro s x nn
  have hreg := regBecomes_setReg s x (Config.randByte s.draws &&& nn)
  refine ⟨_, emit_eq _ _, rfl, hreg, fun hnn => ?_, rfl,
    (((keepsAllBut_setReg s x _).trans (keepsAllBut_countDraw _)).returning _).mono (by simp)⟩
  subst hnn
  exact hreg.1.trans BitVec.and_zero

end Sys2Proof.Machine
end

section
/-! PROOFS. Control transfer beside the skips on bytes: the jump with offset, the skips on keys, and a return after a call. -/

namespace Sys2Proof.Machine

open Sys2Proof

/-- Settles O29: the sum with the zero-extended byte, stored in 12 bits. -/
theorem jumpWithOffsetAddsV0 : Obligations.JumpWithOffsetAddsV0 := by
  intro s nnn
  refine ⟨_, emit_eq _ _, rfl, ?_, (keepsAllBut_setPc s _).returning _⟩
  simp

theorem emit_skipIf_not_setsPcAlone (s : State) (c : Bool) :
    SetsPcAlone s (if c then s.pc else s.pc + 2) (emit .executed (s.skipIf (!c))) := by
  cases c
  · exact emit_skipIf_setsPcAlone s true
  · exact emit_skipIf_setsPcAlone s false

/-- The key named by the low nibble (R110). -/
theorem keyOperand_eq {s : State} {x : Reg} {k : Key} (h : k.val = (s.getReg x &&& 0x0F).toNat) : s.keyOperand x = k := by
  apply Fin.ext
  rw [h, BitVec.toNat_and]
  exact (Nat.and_two_pow_sub_one_eq_mod _ 4).symm

/-- Settles O32: the skips read the level of the key that the low nibble names. -/
theorem keySkips : Obligations.KeySkips := by
  intro s x k hk
  rw [← keyOperand_eq hk]
  exact ⟨emit_skipIf_setsPcAlone s (s.keyDown (s.keyOperand x)),
    emit_skipIf_not_setsPcAlone s (s.keyDown (s.keyOperand x))⟩

/-- Settles O28: the pop finds the entry the call pushed, and the push left those below it. -/
theorem returnUndoesCall : Obligations.ReturnUndoesCall := by
  intro s nnn hfree
  have hpush := s.push_of_lt s.pc hfree
  refine ⟨_, exec_call_of_push hpush, fun u hstack hsp => ?_⟩
  have hsp : u.sp.val = s.sp.val + 1 := congrArg Fin.val hsp
  have hpop := u.pop_of_pos (by omega)
  refine ⟨_, exec_ret_of_pop hpop, ?_, Fin.ext (by simp [hsp]), fun k hk => ?_⟩
  · simp [hstack, hsp]
  · simp [hstack, Vector.getElem_set_ne _ _ (Nat.ne_of_gt hk)]

end Sys2Proof.Machine
end

section
/-! PROOFS. The index register and the memory transfers (44_index_memory), and the fetch of what they store (R51). -/

namespace Sys2Proof.Machine

open Sys2Proof

/-! ### The index register -/

/-- Settles O43: the sum with the zero-extended byte, in 16 bits. -/
theorem addToIndex : Obligations.AddToIndex := by
  intro s x
  refine ⟨_, emit_eq _ _, rfl, ?_, (keepsAllBut_setI s _).returning _⟩
  simp

theorem toNat_glyphAddress (cfg : Config) (d : Fin 16) : (glyphAddress cfg d).toNat = cfg.fontBase.val + 5 * d.val := by
  have := cfg.fontBase.isLt
  have := d.isLt
  rw [glyphAddress, BitVec.toNat_ofNat]
  omega

/-- Settles O44: the glyph's address fits in `I`, and the font bytes from there on are the glyph's while they are intact. -/
theorem indexOfGlyph : Obligations.IndexOfGlyph := by
  intro s x
  have hi := toNat_glyphAddress s.cfg (lowNibble (s.getReg x))
  refine ⟨_, emit_eq _ _, rfl, hi, fun hfont k hk => ?_, (keepsAllBut_setI s _).returning _⟩
  have hd := (lowNibble (s.getReg x)).isLt
  have hbyte := hfont ⟨5 * (lowNibble (s.getReg x)).val + k, by omega⟩
  rw [← Nat.add_assoc, ← hi] at hbyte
  exact (Vector.getElem?_eq_getElem _).trans (congrArg some hbyte.symm)

@[simp] theorem State.advanceI_readByte (s : State) (x : Reg) (a : Nat) : (s.advanceI x).readByte a = s.readByte a := by
  rw [State.advanceI_eq, State.setI_readByte]

@[simp] theorem State.advanceI_getReg (s : State) (x z : Reg) : (s.advanceI x).getReg z = s.getReg z := by
  rw [State.advanceI_eq, State.setI_getReg]

/-- `I` after the advance, as a number (R108, R109). -/
theorem State.toNat_advanceI_i (s : State) (x : Reg) :
    (s.advanceI x).i.toNat = if s.cfg.lsIncrementsI then (s.i.toNat + x.val + 1) % 65536 else s.i.toNat := by
  rw [State.advanceI_eq, State.setI_i]
  split
  · simp [Nat.add_assoc]
  · rfl

/-! ### Bytes stored from `I` on -/

/-- In `t` the bytes `bs` stand from the `I` of `s` on, and every other byte is that of `s`. -/
def StoredAtIndex (s t : State) (bs : List Byte) : Prop :=
  (∀ k (hk : k < bs.length), t.readByte (s.dataAddress k) = bs[k]) ∧
    ∀ a, (∀ k, k < bs.length → a % 4096 ≠ s.dataAddress k % 4096) → t.readByte a = s.readByte a

theorem storedAtIndex_storeBytes (s : State) {bs : List Byte} (hl : bs.length ≤ memSize) :
    StoredAtIndex s (s.storeBytes (s.dataAddress 0) bs) bs :=
  ⟨fun k hk => s.readByte_storeBytes (s.dataAddress 0) k bs hl hk,
    fun a ha => s.readByte_storeBytes_of_ne (s.dataAddress 0) a bs ha⟩

@[simp] theorem length_decimalDigits (b : Byte) : (decimalDigits b).length = 3 := rfl

/-- What `FX33` does: the digits stand at `I`, and memory alone changes. -/
theorem exec_ldBX_stores (s : State) (x : Reg) : ∃ t, exec (.ldBX x) s = .next t ∧ t.result = .ok .executed ∧
    StoredAtIndex s t (decimalDigits (s.getReg x)) ∧ KeepsAllBut [.memory] s t :=
  ⟨_, emit_eq _ _, rfl, storedAtIndex_storeBytes s (by decide : 3 ≤ memSize), (keepsAllBut_storeBytes s _ _).returning _⟩

/-- What `FX55` does: the registers stand from the old `I` on, then `I` may advance. -/
theorem exec_ldMemX_stores (s : State) (x : Reg) : ∃ t, exec (.ldMemX x) s = .next t ∧ t.result = .ok .executed ∧
    StoredAtIndex s t (s.regsUpTo x) ∧
    t.i.toNat = (if s.cfg.lsIncrementsI then (s.i.toNat + x.val + 1) % 65536 else s.i.toNat) ∧
    KeepsAllBut [.memory, .index] s t := by
  have hx := x.isLt
  have hstored := storedAtIndex_storeBytes s (bs := s.regsUpTo x) (by rw [State.length_regsUpTo, memSize]; omega)
  refine ⟨_, emit_eq _ _, rfl, by simpa [StoredAtIndex] using hstored, by simp [State.toNat_advanceI_i],
    (((keepsAllBut_storeBytes s _ _).trans (keepsAllBut_advanceI _ x)).returning _).mono (by simp)⟩

/-- Register `k` of those `FX55` stores. -/
theorem StoredAtIndex.readByte_reg {s t : State} {x k : Reg} (h : StoredAtIndex s t (s.regsUpTo x)) (hk : k ≤ x) :
    t.readByte (s.dataAddress k.val) = s.getReg k := by
  obtain ⟨hstored, -⟩ := h
  rw [hstored k.val (by simpa [Nat.lt_succ_iff] using hk), State.getElem_regsUpTo, Fin.ofNat_val_eq_self]

theorem StoredAtIndex.readByte_other {s t : State} {x : Reg} {a : Nat} (h : StoredAtIndex s t (s.regsUpTo x))
    (ha : ∀ k : Reg, k ≤ x → a % 4096 ≠ s.dataAddress k.val % 4096) : t.readByte a = s.readByte a := by
  obtain ⟨-, hother⟩ := h
  refine hother a fun k hk => ?_
  have hx := x.isLt
  rw [State.length_regsUpTo] at hk
  exact ha ⟨k, by omega⟩ (Nat.lt_succ_iff.mp hk)

/-- The digits `FX33` stores take three places. -/
theorem StoredAtIndex.readByte_beside_digits {s t : State} {b : Byte} {a : Nat} (h : StoredAtIndex s t (decimalDigits b))
    (ha : ∀ k, k ≤ 2 → a % 4096 ≠ s.dataAddress k % 4096) : t.readByte a = s.readByte a := by
  obtain ⟨-, hother⟩ := h
  exact hother a fun k hk => ha k (Nat.lt_succ_iff.mp hk)

/-- Settles O45: each digit is below 256, so the stored byte has its number. -/
theorem decimalDigitsAreStored : Obligations.DecimalDigitsAreStored := by
  intro s x
  obtain ⟨t, ht, hres, hmem, hkeeps⟩ := exec_ldBX_stores s x
  have hb := (s.getReg x).isLt
  refine ⟨t, ht, hres, ?_, ?_, ?_, fun a ha => hmem.readByte_beside_digits ha, hkeeps⟩
  · rw [hmem.1 0 (by simp)]
    exact Nat.mod_eq_of_lt (by omega)
  · rw [hmem.1 1 (by simp)]
    exact Nat.mod_eq_of_lt (by omega)
  · rw [hmem.1 2 (by simp)]
    exact Nat.mod_eq_of_lt (by omega)

/-- Settles O46: what `FX55` stores, register by register. -/
theorem registersAreStored : Obligations.RegistersAreStored := by
  intro s x
  obtain ⟨t, ht, hres, hmem, hi, hkeeps⟩ := exec_ldMemX_stores s x
  exact ⟨t, ht, hres, fun k hk => hmem.readByte_reg hk, fun a ha => hmem.readByte_other ha, hi, hkeeps⟩

/-! ### Registers loaded from `I` on -/

/-- Settles O47: register `k` receives byte `k` of those read from `I` on, and `I` may advance after that. -/
theorem registersAreLoaded : Obligations.RegistersAreLoaded := by
  intro s x
  have hx := x.isLt
  have hlen : 0 + (s.readBytes (s.dataAddress 0) (x.val + 1)).length ≤ 16 := by
    rw [State.length_readBytes]
    omega
  refine ⟨_, emit_eq _ _, rfl, fun k hk => ?_, fun k hk => ?_, by simp [State.toNat_advanceI_i],
    (((keepsAllBut_setRegsFrom s _ _).trans (keepsAllBut_advanceI _ x)).returning _).mono (by simp)⟩
  · have hk : k.val < x.val + 1 := Nat.lt_succ_iff.mpr hk
    rw [State.returning_getReg, State.advanceI_getReg,
      State.getReg_setRegsFrom s 0 k.val _ k hlen (by simpa using hk) (Nat.zero_add _).symm, State.getElem_readBytes]
    rfl
  · have hk : x.val < k.val := hk
    rw [State.returning_getReg, State.advanceI_getReg, State.getReg_setRegsFrom_of_out s 0 _ k hlen
      (.inr (by rw [State.length_readBytes]; omega))]

/-- Settles O48: the load reads the bytes where the store put them. -/
theorem loadRestoresStoredRegisters : Obligations.LoadRestoresStoredRegisters := by
  intro s x
  obtain ⟨t, ht, -, hstored, -⟩ := registersAreStored s x
  refine ⟨t, ht, fun u hcfg hmem hi => ?_⟩
  obtain ⟨w, hw, -, hloaded, -⟩ := registersAreLoaded u x
  refine ⟨w, hw, fun k hk => ?_⟩
  have hread : u.readByte (u.dataAddress k.val) = t.readByte (s.dataAddress k.val) := by
    simp [State.readByte, State.dataAddress, hcfg, hmem, hi]
  rw [hloaded k hk, hread, hstored k hk]

/-! ### Storing over the next instruction -/

theorem fetchReads_of_readByte {t : State} {a : Nat} {b : Byte} (h : t.readByte a = b) : FetchReads t a b :=
  h ▸ fetchReads_readByte t a

/-- Addresses equal modulo 4096 read alike (R36). -/
theorem State.readByte_congr (s : State) {a b : Nat} (h : a % 4096 = b % 4096) : s.readByte a = s.readByte b :=
  congrArg (Memory.read s.cfg s.mem) h

/-- Settles O16: the fetch reads memory, and a store leaves `pc` and puts its bytes where the statements about `FX55` and
`FX33` say. -/
theorem storedWordIsFetchedNext : Obligations.StoredWordIsFetchedNext := by
  refine fun s x => ⟨?_, ?_⟩
  · obtain ⟨t, ht, -, hmem, -, -, -, hparts⟩ := exec_ldMemX_stores s x
    have hpc : t.pc = s.pc := hparts .pc (by simp)
    refine ⟨t, ht, hpc, fun k hk => fetchReads_of_readByte (hmem.readByte_reg hk),
      fun a ha => fetchReads_of_readByte (hmem.readByte_other ha), fun hx hi => ?_⟩
    have hhigh : t.readByte t.pc.toNat = s.getReg 0 := by
      rw [← hmem.readByte_reg (Fin.zero_le x), hpc]
      exact t.readByte_congr (by simp only [State.dataAddress, Fin.val_zero]; omega)
    have hlow : t.readByte (t.pc.toNat + 1) = s.getReg 1 := by
      rw [← hmem.readByte_reg (k := 1) (Fin.le_def.mpr hx), hpc]
      exact t.readByte_congr (by simp only [State.dataAddress, Fin.val_one]; omega)
    rw [State.fetchWord, hhigh, hlow, wordOfBytes]
  · obtain ⟨t, ht, -, hmem, -, -, hparts⟩ := exec_ldBX_stores s x
    exact ⟨t, ht, hparts .pc (by simp), fetchReads_of_readByte (hmem.1 0 (by simp)),
      fetchReads_of_readByte (hmem.1 1 (by simp)), fetchReads_of_readByte (hmem.1 2 (by simp)),
      fun a ha => fetchReads_of_readByte (hmem.readByte_beside_digits ha)⟩

end Sys2Proof.Machine
end

section
/-! PROOFS. The display (41_display): the blank screen, one draw, and two draws of one sprite. -/

namespace Sys2Proof.Machine

open Sys2Proof

/-- Settles O22: the blank screen replaces the frame buffer and nothing else. -/
theorem clsClearsEveryPixel : Obligations.ClsClearsEveryPixel := fun s =>
  ⟨_, emit_eq _ _, rfl, pixelAt_blankScreen, (keepsAllBut_setFb s _).returning _⟩

/-- What `DXYN` writes: the frame buffer the write engine gives, and its collision flag to VF. -/
theorem exec_drw_writes (s : State) (x y : Reg) (n : Nibble) : ∃ t, exec (.drw x y n) s = .next t ∧
    t.result = .ok .redraw ∧ t.fb = (s.drawSprite x y n).1 ∧ RegBecomes s t 0xF (flagByte (s.drawSprite x y n).2) ∧
    KeepsAllBut [.display, .registers] s t :=
  ⟨_, emit_eq _ _, rfl, rfl, regBecomes_setReg (s.setFb (s.drawSprite x y n).1) 0xF _,
    (((keepsAllBut_setFb s _).trans (keepsAllBut_setReg _ 0xF _)).returning _).mono (by simp)⟩

/-- Settles O23: the write engine flips what the sprite covers and reports a hit, which VF receives. -/
theorem drawFlipsTheCoveredPixels : Obligations.DrawFlipsTheCoveredPixels := by
  intro s x y n
  obtain ⟨t, ht, hres, hfb, hreg, hkeeps⟩ := exec_drw_writes s x y n
  obtain ⟨hcovered, hother, hhit⟩ := drawSprite_spec s x y n
  rw [← hfb] at hcovered hother
  refine ⟨t, ht, hres, hcovered, hother, fun hit => ?_, fun noHit => ?_, hkeeps⟩
  · rwa [hhit.mpr hit] at hreg
  · rwa [Bool.eq_false_of_not_eq_true (mt hhit.mp noHit)] at hreg

/-- The sprite depends on the two coordinates, `I`, the memory and `DRAW_WRAPS` alone (R79). -/
theorem spriteCovers_congr {s t : State} {x y : Reg} {n : Nibble} {py : Fin 32} {px : Fin 64} (hcfg : t.cfg = s.cfg)
    (hx : t.getReg x = s.getReg x) (hy : t.getReg y = s.getReg y) (hi : t.i = s.i)
    (hmem : ∀ a, t.readByte a = s.readByte a) : SpriteCovers t x y n py px ↔ SpriteCovers s x y n py px := by
  simp only [SpriteCovers, State.dataAddress, hcfg, hx, hy, hi, hmem]

theorem flagByte_eq_one_iff (f : Bool) : flagByte f = 1 ↔ f = true := by
  cases f <;> decide

/-- Settles O24: the first draw leaves what the sprite depends on, so the second one flips the same pixels back, and hits
where the first one set a pixel. -/
theorem drawingTwiceRestoresTheScreen : Obligations.DrawingTwiceRestoresTheScreen := by
  intro s x y n hx hy
  obtain ⟨t, ht, -, hfb, ⟨-, hregs⟩, hcfg, -, hparts⟩ := exec_drw_writes s x y n
  obtain ⟨u, hu, -, hfb', ⟨hVF, -⟩, -⟩ := exec_drw_writes t x y n
  obtain ⟨hflip, hleave, -⟩ := drawSprite_spec s x y n
  obtain ⟨hflip', hleave', hhit'⟩ := drawSprite_spec t x y n
  simp only [spriteCovers_congr hcfg (hregs x hx) (hregs y hy) (hparts .index (by simp)) (hparts .memory (by simp))]
    at hflip' hleave' hhit'
  rw [← hfb] at hflip hleave
  rw [← hfb'] at hflip' hleave'
  refine ⟨t, u, ht, hu, frameBuffer_ext _ _ fun py px => ?_, ?_⟩
  · by_cases hc : SpriteCovers s x y n py px
    · rw [hflip' py px hc, hflip py px hc, Bool.not_not]
    · rw [hleave' py px hc, hleave py px hc]
  · rw [hVF, flagByte_eq_one_iff, hhit']
    refine exists_congr fun py => exists_congr fun px => and_congr_right fun hc => ?_
    rw [hflip py px hc, Bool.not_eq_true']

end Sys2Proof.Machine
end

section
/-! PROOFS. The step (40_interpreter R66): every step answers, what it ran, and what it can have changed. -/

namespace Sys2Proof.Machine

open Sys2Proof

variable {s t : State}

/-! ### What a step ran -/

theorem exec_answers (i : Instr) (s : State) : ∃ t, exec i s = .next t := by
  cases i
  case ret =>
    cases h : s.pop with
    | none => exact ⟨_, exec_ret_of_underflow h⟩
    | some p => exact ⟨_, exec_ret_of_pop h⟩
  case call nnn =>
    cases h : s.push s.pc with
    | none => exact ⟨_, exec_call_of_overflow h⟩
    | some u => exact ⟨_, exec_call_of_push h⟩
  all_goals exact ⟨_, rfl⟩

theorem step_of_decodes {i : Instr} (hm : s.mode = .running) (hd : decodeWord s.fetchWord = some i) :
    step s = exec i s.advancePc := by
  rw [step_of_running hm, runningStep, hd]

theorem step_of_invalid (hm : s.mode = .running) (hd : decodeWord s.fetchWord = none) :
    step s = execInvalid s.fetchWord s.advancePc := by
  rw [step_of_running hm, runningStep, hd]

theorem keywaitPoll_of_none {x : Reg} (h : s.firstLatched = none) : keywaitPoll x s = .next (s.returning (.ok .idle)) := by
  simp [keywaitPoll, h, emit_eq]

theorem keywaitPoll_of_some {x : Reg} {k : Key} (h : s.firstLatched = some k) : keywaitPoll x s =
    .next ((((s.setReg x (BitVec.ofNat 8 k.val)).clearLatch).setMode .running).returning (.ok .executed)) := by
  simp [keywaitPoll, h, emit_eq]

/-- What a step ran and the state it left: it took the stored fault again, idled in the key wait, delivered the lowest
latched key, executed the decoded instruction, halted on an invalid word, or skipped it. -/
inductive StepRan (s : State) : State → Prop where
  | halted (f : Fault) (hm : s.mode = .halted f) : StepRan s (s.returning (.err f))
  | idle (x : Reg) (hm : s.mode = .waitingForKey x) (hk : s.firstLatched = none) : StepRan s (s.returning (.ok .idle))
  | key (x : Reg) (k : Key) (hm : s.mode = .waitingForKey x) (hk : s.firstLatched = some k) :
      StepRan s ((((s.setReg x (BitVec.ofNat 8 k.val)).clearLatch).setMode .running).returning (.ok .executed))
  | instr (i : Instr) (t : State) (hr : Runs s i) (he : exec i s.advancePc = .next t) : StepRan s t
  | invalid (hm : s.mode = .running) (hd : decodeWord s.fetchWord = none) (hp : s.cfg.invalidOpcodeFatal = true) :
      StepRan s ((s.advancePc.setMode (.halted (.invalidOpcode s.fetchWord))).returning
        (.err (.invalidOpcode s.fetchWord)))
  | skipped (hm : s.mode = .running) (hd : decodeWord s.fetchWord = none) (hp : ¬ s.cfg.invalidOpcodeFatal = true) :
      StepRan s (s.advancePc.returning (.ok .executed))

/-- Every step answers a state, in one of the six ways. -/
theorem step_answers (s : State) : ∃ t, step s = .next t ∧ StepRan s t := by
  obtain ⟨f, hm, hs⟩ | ⟨x, hm, hs⟩ | ⟨i, hm, hd, hs⟩ | ⟨hm, hd, hs⟩ := step_cases s
  · exact ⟨_, hs, .halted f hm⟩
  · obtain ⟨hk, hp⟩ | ⟨k, hk, hp⟩ := keywaitPoll_cases x s
    · exact ⟨_, hs.trans hp, .idle x hm hk⟩
    · exact ⟨_, hs.trans hp, .key x k hm hk⟩
  · obtain ⟨t, ht⟩ := exec_answers i s.advancePc
    exact ⟨t, hs.trans ht, .instr i t ⟨hm, hd⟩ ht⟩
  · rw [execInvalid_eq] at hs
    split at hs
    · exact ⟨_, hs, .invalid hm hd ‹_›⟩
    · exact ⟨_, hs, .skipped hm hd ‹_›⟩

theorem stepRan_of_step (h : step s = .next t) : StepRan s t := by
  obtain ⟨u, hu, hran⟩ := step_answers s
  cases hu.symm.trans h
  exact hran

/-! ### What an instruction can change -/

/-- The parts of the state that an instruction may change, under a configuration: the advance of `I` is a switch's. -/
def mayChange (cfg : Config) : Instr → List Part
  | .cls => [.display]
  | .ret => [.pc, .stackPointer, .mode]
  | .call _ => [.pc, .stackEntries, .stackPointer, .mode]
  | .jp _ | .jpV0 _ | .seImm _ _ | .sneImm _ _ | .seReg _ _ | .sneReg _ _ | .skp _ | .sknp _ => [.pc]
  | .ldImm _ _ | .addImm _ _ | .ldReg _ _ | .orReg _ _ | .andReg _ _ | .xorReg _ _ | .addReg _ _ | .sub _ _ | .shr _ _
  | .subn _ _ | .shl _ _ | .ldXDt _ => [.registers]
  | .rnd _ _ => [.draws, .registers]
  | .drw _ _ _ => [.registers, .display]
  | .ldI _ | .addIX _ | .ldFX _ => [.index]
  | .ldXK _ => [.mode, .latch]
  | .ldDtX _ => [.delayTimer]
  | .ldStX _ => [.soundTimer]
  | .ldBX _ => [.memory]
  | .ldMemX _ => (if cfg.lsIncrementsI then [.index] else []) ++ [.memory]
  | .ldXMem _ => (if cfg.lsIncrementsI then [.index] else []) ++ [.registers]

/-- An advance of `I` after an operation is one more change only under the switch. -/
theorem KeepsAllBut.advanceI {changed : List Part} {u : State} (h : KeepsAllBut changed s u) (x : Reg) :
    KeepsAllBut ((if s.cfg.lsIncrementsI then [.index] else []) ++ changed) s (u.advanceI x) := by
  by_cases hls : s.cfg.lsIncrementsI = true
  · rw [if_pos hls]
    exact h.trans (keepsAllBut_advanceI u x)
  · rwa [if_neg hls, State.advanceI_of_not_increments (by simpa [h.1] using hls)]

theorem keepsAllBut_raise (f : Fault) (s : State) :
    KeepsAllBut [.mode] s ((s.setMode (.halted f)).returning (.err f)) :=
  (keepsAllBut_setMode s _).returning _

/-- The frame of each instruction (R68). -/
theorem exec_keepsAllBut {i : Instr} (h : exec i s = .next t) : KeepsAllBut (mayChange s.cfg i) s t := by
  cases i
  case ret =>
    cases hp : s.pop with
    | none =>
      cases (exec_ret_of_underflow hp).symm.trans h
      exact (keepsAllBut_raise _ s).mono (by simp [mayChange])
    | some p =>
      cases (exec_ret_of_pop hp).symm.trans h
      exact ((keepsAllBut_of_pop hp).trans (keepsAllBut_setPc_returning _ _ _)).mono (by simp [mayChange])
  case call nnn =>
    cases hp : s.push s.pc with
    | none =>
      cases (exec_call_of_overflow hp).symm.trans h
      exact (keepsAllBut_raise _ s).mono (by simp [mayChange])
    | some u =>
      cases (exec_call_of_push hp).symm.trans h
      exact ((keepsAllBut_of_push hp).trans (keepsAllBut_setPc_returning _ _ _)).mono (by simp [mayChange])
  all_goals cases h
  case cls => exact (keepsAllBut_setFb s _).returning _
  case jp | jpV0 => exact (keepsAllBut_setPc s _).returning _
  case seImm | sneImm | seReg | sneReg | skp | sknp => exact (keepsAllBut_skipIf s _).returning _
  case ldImm | addImm | ldReg | orReg | andReg | xorReg | ldXDt => exact (keepsAllBut_setReg s _ _).returning _
  case addReg | sub | shr | subn | shl => exact (keepsAllBut_setRegAndFlag s _ _ _).returning _
  case rnd => exact ((keepsAllBut_setReg s _ _).trans (keepsAllBut_countDraw _)).returning _
  case drw => exact ((keepsAllBut_setFb s _).trans (keepsAllBut_setReg _ _ _)).returning _
  case ldI | addIX | ldFX => exact (keepsAllBut_setI s _).returning _
  case ldXK => exact ((keepsAllBut_clearLatch s).trans (keepsAllBut_setMode _ _)).returning _
  case ldDtX => exact (keepsAllBut_setDt s _).returning _
  case ldStX => exact (keepsAllBut_setSt s _).returning _
  case ldBX => exact (keepsAllBut_storeBytes s _ _).returning _
  case ldMemX x => exact ((keepsAllBut_storeBytes s _ _).advanceI x).returning _
  case ldXMem x => exact ((keepsAllBut_setRegsFrom s _ _).advanceI x).returning _

/-! ### What a step can change -/

theorem keepsAllBut_advancePc (s : State) : KeepsAllBut [.pc] s s.advancePc := keepsAllBut_setPc s _

/-- The frame of a key delivered by the key wait (R115). -/
theorem keepsAllBut_deliverKey (s : State) (x : Reg) (b : Byte) : KeepsAllBut [.mode, .latch, .registers] s
    ((((s.setReg x b).clearLatch).setMode .running).returning (.ok .executed)) :=
  (((keepsAllBut_setReg s x b).trans (keepsAllBut_clearLatch _)).trans (keepsAllBut_setMode _ _)).returning _

/-- The parts that a step from `s` may change: those of the instruction it runs and `pc`, or of the key it delivers, or of
the invalid word it takes. -/
def StepMayChange (s : State) (p : Part) : Prop :=
  (∃ i, Runs s i ∧ (p ∈ mayChange s.cfg i ∨ p = .pc)) ∨
    (∃ x, s.mode = .waitingForKey x ∧ p ∈ [.mode, .latch, .registers]) ∨ (s.mode = .running ∧ p ∈ [.mode, .pc])

/-- A step keeps the configuration and the key levels (R6, R29), and changes no part but those it may. -/
theorem stepRan_frame (h : StepRan s t) :
    t.cfg = s.cfg ∧ t.keys = s.keys ∧ ∀ p, ¬ StepMayChange s p → Unchanged s t p := by
  cases h with
  | halted f hm | idle x hm hk =>
    obtain ⟨hcfg, hkeys, hparts⟩ := keepsAllBut_returning s _
    exact ⟨hcfg, hkeys, fun p _ => hparts p List.not_mem_nil⟩
  | key x k hm hk =>
    obtain ⟨hcfg, hkeys, hparts⟩ := keepsAllBut_deliverKey s x _
    exact ⟨hcfg, hkeys, fun p hp => hparts p fun hmem => hp (.inr (.inl ⟨x, hm, hmem⟩))⟩
  | instr i t hr he =>
    obtain ⟨hcfg, hkeys, hparts⟩ := (keepsAllBut_advancePc s).trans (exec_keepsAllBut he)
    refine ⟨hcfg, hkeys, fun p hp => hparts p fun hmem => hp (.inl ⟨i, hr, ?_⟩)⟩
    rwa [List.mem_append, List.mem_singleton] at hmem
  | invalid hm hd hfatal =>
    obtain ⟨hcfg, hkeys, hparts⟩ := (keepsAllBut_advancePc s).trans (keepsAllBut_raise _ _)
    exact ⟨hcfg, hkeys, fun p hp => hparts p fun hmem => hp (.inr (.inr ⟨hm, hmem⟩))⟩
  | skipped hm hd hp =>
    obtain ⟨hcfg, hkeys, hparts⟩ := (keepsAllBut_advancePc s).returning _
    exact ⟨hcfg, hkeys, fun p hp => hparts p fun hmem => hp (.inr (.inr ⟨hm, .tail _ hmem⟩))⟩

/-- A register that a step changed is one its instruction writes (R18), or the key wait's. -/
theorem stepRan_getReg_ne {z : Reg} (h : StepRan s t) (hz : t.getReg z ≠ s.getReg z) :
    (∃ i, Runs s i ∧ WritesReg z i) ∨ s.mode = .waitingForKey z := by
  cases h with
  | instr i t hr he => exact .inl ⟨i, hr, not_not.mp fun hw => hz ((exec_getReg_of_not_writes he hw).trans (s.advancePc_getReg z))⟩
  | key x k hm hk =>
    by_cases hzx : z = x
    · exact .inr (hzx ▸ hm)
    · exact absurd ((regBecomes_setReg s x _).2 z hzx) hz
  | halted | idle | invalid | skipped => exact absurd rfl hz

/-- How a step can have changed the mode (R31, R119). -/
theorem stepRan_mode_ne (h : StepRan s t) (hne : t.mode ≠ s.mode) : ModeChange s t.mode := by
  cases h with
  | instr i t hr he =>
    obtain hsame | ⟨x, rfl, hmode⟩ | ⟨nnn, rfl, hfull, hmode⟩ | ⟨rfl, hempty, hmode⟩ := exec_mode_cases he
    · exact absurd hsame hne
    · rw [hmode]
      exact .keyWait x hr
    · rw [hmode]
      exact .overflow nnn hr hfull
    · rw [hmode]
      exact .underflow hr hempty
  | key x k hm hk =>
    refine .keyPressed x hm fun hnone => ?_
    rw [(firstLatched_eq_none s).mpr hnone] at hk
    cases hk
  | invalid hm hd hp => exact .invalid hm hd hp
  | halted | idle | skipped => exact absurd rfl hne

/-! ### The instructions that may change a part -/

/-- A part other than those a key or an invalid word changes was changed by an instruction. -/
theorem runs_of_stepMayChange {p : Part} (h : StepMayChange s p) (hp : p ∉ [Part.mode, .latch, .registers, .pc]) :
    ∃ i, Runs s i ∧ p ∈ mayChange s.cfg i := by
  obtain ⟨i, hr, hi | rfl⟩ | ⟨x, -, hmem⟩ | ⟨-, hmem⟩ := h
  · exact ⟨i, hr, hi⟩
  · simp at hp
  · simp_all
  · simp_all

theorem runs_of_memory (h : StepMayChange s .memory) : ∃ x, Runs s (.ldBX x) ∨ Runs s (.ldMemX x) := by
  obtain ⟨i, hr, hi⟩ := runs_of_stepMayChange h (by decide)
  cases i with
  | ldBX x => exact ⟨x, .inl hr⟩
  | ldMemX x => exact ⟨x, .inr hr⟩
  | _ => simp [mayChange] at hi

theorem runs_of_display (h : StepMayChange s .display) : Runs s .cls ∨ ∃ x y n, Runs s (.drw x y n) := by
  obtain ⟨i, hr, hi⟩ := runs_of_stepMayChange h (by decide)
  cases i with
  | cls => exact .inl hr
  | drw x y n => exact .inr ⟨x, y, n, hr⟩
  | _ => simp [mayChange] at hi

theorem runs_of_stackEntries (h : StepMayChange s .stackEntries) : ∃ nnn, Runs s (.call nnn) := by
  obtain ⟨i, hr, hi⟩ := runs_of_stepMayChange h (by decide)
  cases i with
  | call nnn => exact ⟨nnn, hr⟩
  | _ => simp [mayChange] at hi

theorem runs_of_stackPointer (h : StepMayChange s .stackPointer) : Runs s .ret ∨ ∃ nnn, Runs s (.call nnn) := by
  obtain ⟨i, hr, hi⟩ := runs_of_stepMayChange h (by decide)
  cases i with
  | ret => exact .inl hr
  | call nnn => exact .inr ⟨nnn, hr⟩
  | _ => simp [mayChange] at hi

theorem runs_of_index (h : StepMayChange s .index) :
    (∃ nnn, Runs s (.ldI nnn)) ∨ (∃ x, Runs s (.addIX x) ∨ Runs s (.ldFX x)) ∨
      s.cfg.lsIncrementsI = true ∧ ∃ x, Runs s (.ldMemX x) ∨ Runs s (.ldXMem x) := by
  obtain ⟨i, hr, hi⟩ := runs_of_stepMayChange h (by decide)
  cases i with
  | ldI nnn => exact .inl ⟨nnn, hr⟩
  | addIX x => exact .inr (.inl ⟨x, .inl hr⟩)
  | ldFX x => exact .inr (.inl ⟨x, .inr hr⟩)
  | ldMemX x => exact .inr (.inr ⟨by simpa [mayChange] using hi, x, .inl hr⟩)
  | ldXMem x => exact .inr (.inr ⟨by simpa [mayChange] using hi, x, .inr hr⟩)
  | _ => simp [mayChange] at hi

theorem runs_of_delayTimer (h : StepMayChange s .delayTimer) : ∃ x, Runs s (.ldDtX x) := by
  obtain ⟨i, hr, hi⟩ := runs_of_stepMayChange h (by decide)
  cases i with
  | ldDtX x => exact ⟨x, hr⟩
  | _ => simp [mayChange] at hi

theorem runs_of_soundTimer (h : StepMayChange s .soundTimer) : ∃ x, Runs s (.ldStX x) := by
  obtain ⟨i, hr, hi⟩ := runs_of_stepMayChange h (by decide)
  cases i with
  | ldStX x => exact ⟨x, hr⟩
  | _ => simp [mayChange] at hi

theorem runs_of_draws (h : StepMayChange s .draws) : ∃ x nn, Runs s (.rnd x nn) := by
  obtain ⟨i, hr, hi⟩ := runs_of_stepMayChange h (by decide)
  cases i with
  | rnd x nn => exact ⟨x, nn, hr⟩
  | _ => simp [mayChange] at hi

theorem runs_or_waits_of_latch (h : StepMayChange s .latch) :
    (∃ x, Runs s (.ldXK x)) ∨ ∃ x, s.mode = .waitingForKey x := by
  obtain ⟨i, hr, hi⟩ | ⟨x, hm, -⟩ | ⟨-, hmem⟩ := h
  · cases i with
    | ldXK x => exact .inl ⟨x, hr⟩
    | _ => simp [mayChange] at hi
  · exact .inr ⟨x, hm⟩
  · simp at hmem

theorem running_of_pc (h : StepMayChange s .pc) : s.mode = .running := by
  obtain ⟨i, ⟨hm, -⟩, -⟩ | ⟨x, -, hmem⟩ | ⟨hm, -⟩ := h
  · exact hm
  · simp at hmem
  · exact hm

/-! ### The statements about every step -/

/-- Settles O2: each of the ways a step goes answers, and its frame holds the configuration and the key levels. -/
theorem everyStepAnswersANextState : Obligations.EveryStepAnswersANextState := by
  intro s
  obtain ⟨t, ht, hran⟩ := step_answers s
  obtain ⟨hcfg, hkeys, -⟩ := stepRan_frame hran
  exact ⟨t, ht, hcfg, hkeys⟩

/-- Settles O5: the frame of a step leaves the part to the instructions that may change it; a register and the mode are
traced one by one. -/
theorem eachPartChangesOnlyByItsInstructions : Obligations.EachPartChangesOnlyByItsInstructions := by
  intro s t hst
  have hran := stepRan_of_step hst
  obtain ⟨-, -, hframe⟩ := stepRan_frame hran
  have hmay : ∀ p, ¬ Unchanged s t p → StepMayChange s p := fun p => not_imp_comm.mp (hframe p)
  exact ⟨fun h => runs_of_memory (hmay .memory (not_forall.mpr h)), fun h => runs_of_display (hmay .display h),
    fun h => runs_of_stackEntries (hmay .stackEntries h), fun h => runs_of_stackPointer (hmay .stackPointer h),
    fun h => runs_of_index (hmay .index h), fun h => runs_of_delayTimer (hmay .delayTimer h),
    fun h => runs_of_soundTimer (hmay .soundTimer h), fun h => runs_of_draws (hmay .draws h),
    fun h => runs_or_waits_of_latch (hmay .latch h), fun z h => stepRan_getReg_ne hran h,
    fun h => running_of_pc (hmay .pc h), fun h => stepRan_mode_ne hran h⟩

/-- Settles O3: only a fault, old or new, gives `Halted` and `Err`, and it gives both with itself. -/
theorem resultIsErrJustWhenHalted : Obligations.ResultIsErrJustWhenHalted := by
  intro s t f hst
  cases stepRan_of_step hst with
  | halted g hm => simp [hm, eq_comm]
  | idle x hm hk => simp [hm]
  | key x k hm hk => simp
  | instr i t hr he =>
    obtain ⟨hm, -⟩ := hr
    obtain ⟨hmode, e, hres⟩ | ⟨x, hmode, hres⟩ | ⟨g, hmode, hres⟩ := exec_mode he
    · simp [hmode, hres, hm]
    · simp [hmode, hres]
    · simp [hmode, hres]
  | invalid hm hd hp => simp
  | skipped hm hd hp => simp [hm]

/-- Settles O20: storing bytes is all a step does to memory, and it keeps the canonical form. -/
theorem everyStepKeepsMemoryCanonical : Obligations.EveryStepKeepsMemoryCanonical := by
  intro s t hs hst
  cases stepRan_of_step hst with
  | instr i t hr he =>
    obtain ⟨hcfg, -, a, bs, hmem⟩ := exec_keeps he
    have hstored : Canonical (s.advancePc.storeBytes a bs) := State.storeBytes_canonical a bs hs
    rwa [Canonical, State.storeBytes_cfg, ← hcfg, ← hmem] at hstored
  | halted | idle | key | invalid | skipped => exact hs

/-- Settles O1: the step by its mode, the fetched word written out. -/
theorem stepRunsTheDecodedInstruction : Obligations.StepRunsTheDecodedInstruction := by
  refine fun s => ⟨fun f hm => step_of_halted hm, fun x hm => step_of_waiting hm, ?_⟩
  rintro _ rfl hm
  exact ⟨fun i hd => step_of_decodes hm hd, fun hd => step_of_invalid hm hd⟩

/-- Settles O4: the policy decides, and only `pc`, and the mode under a fatal one, change. -/
theorem invalidWordHaltsOrIsSkipped : Obligations.InvalidWordHaltsOrIsSkipped := by
  intro s hm hd
  rw [step_of_invalid hm hd, execInvalid_eq]
  rfl

/-- Settles O7: a halted step and an idle poll record their result alone, and a jump to the old `pc` undoes the advance. -/
theorem quiescentStatesStay : Obligations.QuiescentStatesStay := by
  intro s r h
  cases h with
  | halted f hm => exact step_of_halted hm
  | waiting x hm hk =>
    exact (step_of_waiting hm).trans (keywaitPoll_of_none ((firstLatched_eq_none s).mpr hk))
  | selfJump hjump =>
    obtain ⟨hm, hd⟩ := hjump
    exact step_of_decodes hm hd

end Sys2Proof.Machine
end

section
/-! PROOFS. The key levels (40_interpreter R68): which updates leave them aside, and that only the key skips read them. -/

namespace Sys2Proof.Machine

open Sys2Proof

namespace State

/-- The state with other key levels. -/
def withKeys (s : State) (ks : Vector Bool 16) : State := { s with keys := ks }

variable (s : State) (ks : Vector Bool 16)

theorem skipIf_withKeys (c : Bool) : (s.withKeys ks).skipIf c = (s.skipIf c).withKeys ks := by
  cases c <;> rfl

theorem advanceI_withKeys (x : Reg) : (s.withKeys ks).advanceI x = (s.advanceI x).withKeys ks := by
  rw [advanceI_eq, advanceI_eq]
  rfl

theorem storeBytes_withKeys (a : Nat) (bs : List Byte) :
    (s.withKeys ks).storeBytes a bs = (s.storeBytes a bs).withKeys ks := by
  induction bs generalizing s a with
  | nil => rfl
  | cons b bs ih => exact ih (s.writeByte a b) (a + 1)

theorem setRegsFrom_withKeys (k : Nat) (bs : List Byte) :
    (s.withKeys ks).setRegsFrom k bs = (s.setRegsFrom k bs).withKeys ks := by
  induction bs generalizing s k with
  | nil => rfl
  | cons b bs ih => exact ih (s.setReg (Fin.ofNat 16 k) b) (k + 1)

theorem pop_withKeys : (s.withKeys ks).pop = s.pop.map fun p => (p.1, p.2.withKeys ks) := by
  rcases Nat.eq_zero_or_pos s.sp.val with hempty | hpos
  · rw [s.pop_of_empty hempty, (s.withKeys ks).pop_of_empty hempty]
    rfl
  · rw [s.pop_of_pos hpos, (s.withKeys ks).pop_of_pos hpos]
    rfl

theorem push_withKeys (a : Addr) : (s.withKeys ks).push a = (s.push a).map fun u => u.withKeys ks := by
  by_cases hfree : s.sp.val < 16
  · rw [s.push_of_lt a hfree, (s.withKeys ks).push_of_lt a hfree]
    rfl
  · have hfull : s.sp.val = 16 := by omega
    rw [s.push_of_full a hfull, (s.withKeys ks).push_of_full a hfull]
    rfl

end State

variable {s t : State} (ks : Vector Bool 16)

/-- An instruction that is no key skip does the same whatever the key levels are. -/
theorem exec_withKeys {i : Instr} (hskp : ∀ x, i ≠ .skp x) (hsknp : ∀ x, i ≠ .sknp x) (h : exec i s = .next t) :
    exec i (s.withKeys ks) = .next (t.withKeys ks) := by
  cases i
  case skp x => exact absurd rfl (hskp x)
  case sknp x => exact absurd rfl (hsknp x)
  case ret =>
    have hpop := s.pop_withKeys ks
    cases hp : s.pop with
    | none =>
      rw [hp] at hpop
      cases (exec_ret_of_underflow hp).symm.trans h
      exact exec_ret_of_underflow hpop
    | some p =>
      rw [hp] at hpop
      cases (exec_ret_of_pop hp).symm.trans h
      exact exec_ret_of_pop hpop
  case call nnn =>
    have hpush := s.push_withKeys ks s.pc
    cases hp : s.push s.pc with
    | none =>
      rw [hp] at hpush
      cases (exec_call_of_overflow hp).symm.trans h
      exact exec_call_of_overflow hpush
    | some u =>
      rw [hp] at hpush
      cases (exec_call_of_push hp).symm.trans h
      exact exec_call_of_push hpush
  all_goals cases h
  case seImm | sneImm | seReg | sneReg => exact congrArg (emit .executed) (s.skipIf_withKeys ks _)
  case ldBX => exact congrArg (emit .executed) (s.storeBytes_withKeys ks _ _)
  case ldMemX x =>
    refine congrArg (emit .executed) (Eq.trans ?_ (State.advanceI_withKeys _ ks x))
    exact congrArg (State.advanceI · x) (s.storeBytes_withKeys ks _ _)
  case ldXMem x =>
    refine congrArg (emit .executed) (Eq.trans ?_ (State.advanceI_withKeys _ ks x))
    exact congrArg (State.advanceI · x) (s.setRegsFrom_withKeys ks _ _)
  all_goals rfl

/-- Settles O6: the mode, the fetch and the poll do not look at the key levels, and an executed instruction other than a key
skip does not. -/
theorem onlyKeySkipsReadTheKeyLevels : Obligations.OnlyKeySkipsReadTheKeyLevels := by
  intro s t ks hno hst
  cases stepRan_of_step hst with
  | halted f hm => exact step_of_halted (s := s.withKeys ks) hm
  | idle x hm hk => exact (step_of_waiting (s := s.withKeys ks) hm).trans (keywaitPoll_of_none hk)
  | key x k hm hk => exact (step_of_waiting (s := s.withKeys ks) hm).trans (keywaitPoll_of_some hk)
  | instr i t hr he =>
    have hexec := exec_withKeys ks (fun x hi => (hno x).1 (hi ▸ hr)) (fun x hi => (hno x).2 (hi ▸ hr)) he
    obtain ⟨hm, hd⟩ := hr
    exact (step_of_decodes (s := s.withKeys ks) hm hd).trans hexec
  | invalid hm hd hp => exact (step_of_invalid (s := s.withKeys ks) hm hd).trans (if_pos hp)
  | skipped hm hd hp => exact (step_of_invalid (s := s.withKeys ks) hm hd).trans (if_neg hp)

end Sys2Proof.Machine
end

section
/-! PROOFS. Canonical memory is determined by what it reads as (assumption log 9). -/

namespace Sys2Proof.Machine

open Sys2Proof

variable {cfg : Config} {m m' : List Host.Cell}

/-- Past the last address, canonical memory lists nothing. -/
theorem Memory.lookup_above {lo a : Nat} (h : Memory.wfFrom cfg lo m = true) (ha : memSize ≤ a) :
    Memory.lookup m a = none := by
  cases hv : Memory.lookup m a with
  | none => rfl
  | some v => exact absurd (Memory.lookup_ne_reset h hv).1 (Nat.not_lt.mpr ha)

/-- The first entries of two canonical memories that list the same for every address have one address. -/
theorem Memory.head_le_of_lookup_eq {a b lo : Nat} {v w : Byte} (h : Memory.wfFrom cfg lo ((a, v) :: m) = true)
    (e : ∀ c, Memory.lookup ((a, v) :: m) c = Memory.lookup ((b, w) :: m') c) : a ≤ b := by
  by_contra hlt
  obtain ⟨-, ha, hv, htail⟩ := (Memory.wfFrom_cons cfg lo a v m).mp h
  have hfrom : Memory.wfFrom cfg a ((a, v) :: m) = true := (Memory.wfFrom_cons ..).mpr ⟨le_refl a, ha, hv, htail⟩
  have hb := e b
  rw [Memory.lookup_below hfrom (Nat.not_le.mp hlt)] at hb
  simp [Memory.lookup] at hb

theorem Memory.eq_of_lookup_eq {lo lo' : Nat} (h : Memory.wfFrom cfg lo m = true)
    (h' : Memory.wfFrom cfg lo' m' = true) (e : ∀ c, Memory.lookup m c = Memory.lookup m' c) : m = m' := by
  induction m generalizing lo lo' m' with
  | nil =>
    cases m' with
    | nil => rfl
    | cons d m' => simpa [Memory.lookup] using e d.1
  | cons c m ih =>
    obtain ⟨a, v⟩ := c
    cases m' with
    | nil => simpa [Memory.lookup] using e a
    | cons d m' =>
      obtain ⟨b, w⟩ := d
      obtain rfl : a = b := le_antisymm (head_le_of_lookup_eq h e) (head_le_of_lookup_eq h' fun c => (e c).symm)
      obtain rfl : v = w := by simpa [Memory.lookup] using e a
      rw [Memory.wfFrom_cons] at h h'
      obtain ⟨-, -, -, htail⟩ := h
      obtain ⟨-, -, -, htail'⟩ := h'
      rw [ih htail htail' fun c => ?_]
      by_cases hc : c < a + 1
      · rw [Memory.lookup_below htail hc, Memory.lookup_below htail' hc]
      · have hne : a ≠ c := by omega
        simpa [Memory.lookup, hne] using e c

/-- Settles O14: canonical memories that read alike list the same, below 4096 by what they read and above it nothing, and so
are equal. -/
theorem canonicalMemoriesWithEqualBytesAreEqual : Obligations.CanonicalMemoriesWithEqualBytesAreEqual := by
  intro s t hcfg hs ht hread
  rw [Canonical, ← hcfg] at ht
  refine Memory.eq_of_lookup_eq hs ht fun a => ?_
  by_cases ha : a < memSize
  · refine Memory.lookup_eq_of_read_eq hs ht ?_
    have h := hread a
    rwa [s.readByte_of_lt a ha, t.readByte_of_lt a ha, ← hcfg] at h
  · rw [Memory.lookup_above hs (Nat.not_lt.mp ha), Memory.lookup_above ht (Nat.not_lt.mp ha)]

end Sys2Proof.Machine
end

section
/-! PROOFS. The key wait (45_keys_timers R114, R115): its start and one poll of it. -/

namespace Sys2Proof.Machine

open Sys2Proof

theorem noKeyLatched_clearLatch (s : State) : NoKeyLatched s.clearLatch := by
  intro k
  simp

/-- Settles O50: the latches are cleared and the mode set, and nothing else is written. -/
theorem keyWaitStarts : Obligations.KeyWaitStarts := fun s x =>
  ⟨_, emit_eq _ _, rfl, noKeyLatched_clearLatch s, rfl,
    (((keepsAllBut_clearLatch s).trans (keepsAllBut_setMode _ _)).returning _).mono (by simp)⟩

theorem step_of_waiting_idle {s : State} {x : Reg} (hm : s.mode = .waitingForKey x) (hk : NoKeyLatched s) :
    step s = .next (s.returning (.ok .idle)) :=
  (step_of_waiting hm).trans (keywaitPoll_of_none ((firstLatched_eq_none s).mpr hk))

/-- Settles O51: the poll idles without a latched key, and otherwise delivers the lowest one. -/
theorem keyWaitPolls : Obligations.KeyWaitPolls := by
  intro s x hm
  refine ⟨fun hk => step_of_waiting_idle hm hk, fun k hk hlow => ?_⟩
  exact ⟨_, (step_of_waiting hm).trans (keywaitPoll_of_some (firstLatched_eq_some s k hk hlow)), rfl,
    regBecomes_setReg s x _, noKeyLatched_clearLatch (s.setReg x (BitVec.ofNat 8 k.val)), rfl,
    (keepsAllBut_deliverKey s x _).mono (by simp)⟩

end Sys2Proof.Machine
end

section
/-! PROOFS. Construction and reset (70_reset_and_hazards R135, R136): the values they leave. -/

namespace Sys2Proof.Machine

open Sys2Proof

/-- A core made anew has the construction values, however many bytes of `RAND` it has drawn. -/
theorem atConstruction_constructAgain (cfg : Config) (s : State) : AtConstruction cfg (s.constructAgain cfg) := by
  refine ⟨rfl, freshMemory_of_mem_eq_nil (s.constructAgain_mem cfg), fun x => ?_, rfl, rfl, fun k => ?_, rfl, rfl, rfl,
    pixelAt_blankScreen, fun k => ?_, fun k => ?_, rfl⟩
  · simp [State.getReg, State.constructAgain, State.construct]
  all_goals simp [State.constructAgain, State.construct]

/-- Settles O17: construction is a core made anew before any draw, and `State.reset` takes the defaults. -/
theorem constructionValues : Obligations.ConstructionValues :=
  ⟨fun cfg => atConstruction_constructAgain cfg (State.construct cfg),
    fun _ cfg s => ⟨_, rfl, atConstruction_constructAgain cfg s⟩, rfl, rfl, rfl, rfl, rfl, rfl, rfl⟩

/-- Settles O18: the reset transaction is construction under the core's own configuration, beside `keys` and `draws`. -/
theorem resetKeepsOnlyConfigurationAndKeys : Obligations.ResetKeepsOnlyConfigurationAndKeys := fun _ _ => rfl

theorem canonical_of_mem_eq_nil {s : State} (h : s.mem = []) : Canonical s := by
  rw [Canonical, h]
  rfl

/-- Settles O19: construction lists no byte. -/
theorem constructionIsCanonical : Obligations.ConstructionIsCanonical :=
  ⟨fun cfg => canonical_of_mem_eq_nil (State.construct_mem cfg), canonical_of_mem_eq_nil (State.construct_mem _)⟩

end Sys2Proof.Machine
end

section
/-! PROOFS. The host's transactions (40_interpreter R63): what each one does to the state, and what a sequence of them
keeps. -/

namespace Sys2Proof.Machine

open Sys2Proof

variable {fmt : SnapshotFormat} {s t : State} {r : Reply}

/-! ### What a transaction answers -/

theorem transact_step_of_step (h : step s = .next t) : transact fmt .step s = .next (t, .step t.result) := by
  simp [transact, stepTransaction, h]

theorem transact_step_eq_next (h : transact fmt .step s = .next (t, r)) : step s = .next t ∧ r = .step t.result := by
  obtain ⟨u, hu, -⟩ := step_answers s
  cases (transact_step_of_step hu).symm.trans h
  exact ⟨hu, rfl⟩

theorem transact_setKey (k : Key) (pressed : Bool) (s : State) :
    transact fmt (.setKey k.val pressed) s = .next (s.setKey k pressed, .unit) := by
  simp [transact]

/-- `set_key` changes the levels and the latches alone (R73). -/
theorem State.setKey_eq (s : State) (k : Key) (pressed : Bool) :
    s.setKey k pressed = { s with keys := (s.setKey k pressed).keys, keyEdge := (s.setKey k pressed).keyEdge } := by
  unfold State.setKey
  split_ifs <;> rfl

theorem transact_setKey_eq_next {k : Nat} {pressed : Bool} (h : transact fmt (.setKey k pressed) s = .next (t, r)) :
    r = .unit ∧ ∃ ks es, t = { s with keys := ks, keyEdge := es } := by
  rw [transact] at h
  split at h <;> cases h
  exact ⟨rfl, _, _, s.setKey_eq _ pressed⟩

theorem transact_load_eq_next {rom : List Byte} (h : transact fmt (.load rom) s = .next (t, r)) :
    t = s ∧ r = .romTooLarge ∨ t = s.loadRom rom ∧ r = .loaded := by
  rw [transact] at h
  split at h <;> cases h
  · exact .inr ⟨rfl, rfl⟩
  · exact .inl ⟨rfl, rfl⟩

theorem transact_restore_eq_next {blob : List Byte} (h : transact fmt (.restore blob) s = .next (t, r)) :
    ∃ b, Memory.wf s.cfg b.mem = true ∧ t = s.restore b := by
  rw [transact] at h
  obtain ⟨b, -, hwf, hb⟩ | hb := restoreTransaction_cases fmt blob s
  · cases hb.symm.trans h
    exact ⟨b, hwf, rfl⟩
  · cases hb.symm.trans h

/-! ### What a sequence keeps -/

/-- A property that every transaction of a sequence keeps, each with a reply of some kind, holds at its end, and every reply
is of that kind. -/
theorem transactAll_invariant {P : State → Prop} {Q : Reply → Prop} {ts : List Transaction} {rs : List Reply}
    (hstep : ∀ tr ∈ ts, ∀ u u' q, P u → transact fmt tr u = .next (u', q) → P u' ∧ Q q)
    (hs : P s) (h : transactAll fmt ts s = .next (t, rs)) : P t ∧ ∀ q ∈ rs, Q q := by
  induction ts generalizing s rs with
  | nil =>
    cases h
    exact ⟨hs, by simp⟩
  | cons tr ts ih =>
    obtain ⟨u, q, qs, hfirst, hrest, rfl⟩ := (transactAll_cons_eq_next ..).mp h
    obtain ⟨hu, hq⟩ := hstep tr List.mem_cons_self s u q hs hfirst
    obtain ⟨ht, hqs⟩ := ih (fun tr' htr => hstep tr' (.tail _ htr)) hu hrest
    exact ⟨ht, List.forall_mem_cons.mpr ⟨hq, hqs⟩⟩

/-! ### The memory stays canonical -/

theorem transact_keeps_canonical (tr : Transaction) (hs : Canonical s) (h : transact fmt tr s = .next (t, r)) :
    Canonical t := by
  cases tr with
  | construct cfg =>
    rw [transact_construct_eq_next h]
    exact canonical_of_mem_eq_nil (s.constructAgain_mem cfg)
  | reset =>
    rw [transact_reset_eq_next h]
    exact canonical_of_mem_eq_nil s.resetCore_mem
  | step => exact everyStepKeepsMemoryCanonical s t hs (transact_step_eq_next h).1
  | setKey k pressed =>
    obtain ⟨-, ks, es, rfl⟩ := transact_setKey_eq_next h
    exact hs
  | load rom =>
    obtain ⟨rfl, -⟩ | ⟨rfl, -⟩ := transact_load_eq_next h
    · exact hs
    · exact State.storeBytes_canonical romBase rom hs
  | restore blob =>
    obtain ⟨b, hwf, rfl⟩ := transact_restore_eq_next h
    exact hwf
  | tickTimers | readDisplay | soundActive | snapshot =>
    cases h
    exact hs

/-- Settles O21: each transaction keeps the canonical form, so a sequence does. -/
theorem everyTransactionSequenceKeepsMemoryCanonical : Obligations.EveryTransactionSequenceKeepsMemoryCanonical :=
  fun _ _ _ _ _ hs h => (transactAll_invariant (Q := fun _ => True)
    (fun tr _ _ _ _ hu htr => ⟨transact_keeps_canonical tr hu htr, trivial⟩) hs h).1

/-! ### A halted core stays halted -/

/-- `t` is halted with the fault `f`, and has the registers, `I`, the stack and the frame buffer of `s`. -/
def HaltedLike (f : Fault) (s t : State) : Prop :=
  t.mode = .halted f ∧ t.v = s.v ∧ t.i = s.i ∧ t.stack = s.stack ∧ t.sp = s.sp ∧ t.fb = s.fb

theorem haltedLike_loadRom {f : Fault} {u : State} (h : HaltedLike f s u) (rom : List Byte) :
    HaltedLike f s (u.loadRom rom) := by
  simpa [HaltedLike, State.loadRom, h.1, modeAfterLoad] using h

/-- No transaction but `construct`, `reset` and `restore` leaves `Halted`, and a step returns the stored fault (R69,
R124). -/
theorem transact_of_haltedLike {f : Fault} {u : State} {tr : Transaction} (hu : HaltedLike f s u)
    (hallowed : tr ≠ .reset ∧ (∀ cfg, tr ≠ .construct cfg) ∧ ∀ b, tr ≠ .restore b)
    (h : transact fmt tr u = .next (t, r)) : HaltedLike f s t ∧ ∀ q, r = .step q → q = .err f := by
  obtain ⟨hreset, hconstruct, hrestore⟩ := hallowed
  cases tr with
  | reset => exact absurd rfl hreset
  | construct cfg => exact absurd rfl (hconstruct cfg)
  | restore blob => exact absurd rfl (hrestore blob)
  | step =>
    obtain ⟨hst, rfl⟩ := transact_step_eq_next h
    cases (step_of_halted hu.1).symm.trans hst
    exact ⟨hu, fun q hq => (Reply.step.inj hq).symm⟩
  | setKey k pressed =>
    obtain ⟨rfl, ks, es, rfl⟩ := transact_setKey_eq_next h
    exact ⟨hu, fun q hq => Reply.noConfusion hq⟩
  | load rom =>
    obtain ⟨rfl, rfl⟩ | ⟨rfl, rfl⟩ := transact_load_eq_next h
    · exact ⟨hu, fun q hq => Reply.noConfusion hq⟩
    · exact ⟨haltedLike_loadRom hu rom, fun q hq => Reply.noConfusion hq⟩
  | tickTimers | readDisplay | soundActive | snapshot =>
    cases h
    exact ⟨hu, fun q hq => Reply.noConfusion hq⟩

/-- Settles O59: being halted like the first state is kept by each allowed transaction, so by a sequence of them. -/
theorem haltedIsTerminalUntilReset : Obligations.HaltedIsTerminalUntilReset := by
  intro fmt ts s t rs f hm hallowed h
  have hs : HaltedLike f s s := ⟨hm, rfl, rfl, rfl, rfl, rfl⟩
  obtain ⟨⟨hmode, hrest⟩, hreplies⟩ := transactAll_invariant
    (fun tr htr _ _ _ hu htransact => transact_of_haltedLike hu (hallowed tr htr) htransact) hs h
  exact ⟨hmode, fun r hr => hreplies _ hr r rfl, hrest⟩

end Sys2Proof.Machine
end

section
/-! PROOFS. Single transactions of the host: timers, keys, load, snapshot and restore (R73, R76, R127, R138, R139). -/

namespace Sys2Proof.Machine

open Sys2Proof

variable {fmt : SnapshotFormat} {s t : State}

/-- A sequence whose first transaction answers goes on with the rest. -/
theorem transactAll_cons_of_next {tr : Transaction} {ts : List Transaction} {u : State} {r : Reply} {rs : List Reply}
    (h : transact fmt tr s = .next (t, r)) (hrest : transactAll fmt ts t = .next (u, rs)) :
    transactAll fmt (tr :: ts) s = .next (u, r :: rs) :=
  (transactAll_cons_eq_next ..).mpr ⟨t, r, rs, h, hrest, rfl⟩

/-! ### The timers -/

theorem toNat_tickByte (b : Byte) : (tickByte b).toNat = b.toNat - 1 := by
  unfold tickByte
  split <;> bv_omega

/-- Settles O53: by induction on the ticks, each of which takes one off a timer that is not 0. -/
theorem ticksCountDownToZero : Obligations.TicksCountDownToZero := by
  intro fmt n
  induction n with
  | zero => exact fun s => ⟨s.dt, s.st, rfl, rfl, rfl⟩
  | succ n ih =>
    intro s
    obtain ⟨d, e, hrest, hd, he⟩ := ih s.tickTimers
    refine ⟨d, e, transactAll_cons_of_next rfl hrest, ?_, ?_⟩
    · rw [hd, Nat.add_comm, Nat.sub_add_eq]
      exact congrArg (· - n) (toNat_tickByte s.dt)
    · rw [he, Nat.add_comm, Nat.sub_add_eq]
      exact congrArg (· - n) (toNat_tickByte s.st)

/-! ### Keys -/

/-- A press of an up key sets its level and its latch (R73). -/
theorem State.setKey_press {k : Key} (h : s.keys[k] = false) :
    s.setKey k true = { s with keys := s.keys.set k true, keyEdge := s.keyEdge.set k true } := by
  simp [State.setKey, h]

/-- A press of a key already down changes nothing (R73). -/
theorem State.setKey_press_again {k : Key} (h : s.keys[k] = true) : s.setKey k true = s := by
  simp [State.setKey, h]

/-- Settles O54: a press of an up key, a press of a down key, whose level is set already, and a release. -/
theorem setKeyLatchesNewPresses : Obligations.SetKeyLatchesNewPresses := by
  refine fun fmt s k => ⟨fun hk => ⟨⟨_, transact_setKey ⟨k, hk⟩ true s, ?_⟩, transact_setKey ⟨k, hk⟩ false s⟩,
    fun hk p => dif_neg (Nat.not_lt.mpr hk)⟩
  by_cases hdown : s.keys[k] = true
  · rw [State.setKey_press_again hdown, if_pos hdown]
    exact ⟨by rw [← hdown, Vector.set_getElem_self], rfl, rfl⟩
  · rw [State.setKey_press (Bool.eq_false_of_not_eq_true hdown), if_neg hdown]
    exact ⟨rfl, rfl, rfl⟩

/-- Settles O52: by induction on the polls, each of which idles and keeps the state but for its result; the press then
latches `k` alone, which the last step delivers. -/
theorem keyWaitBlocksUntilAPress : Obligations.KeyWaitBlocksUntilAPress := by
  intro fmt s x k n
  induction n generalizing s with
  | zero =>
    intro hm hk hup
    have hlatched : (s.setKey k true).keyEdge[k] = true := by simp [State.setKey_press hup]
    have hlow : ∀ j : Key, j < k → (s.setKey k true).keyEdge[j] = false := fun j hj => by
      rw [State.setKey_press hup]
      exact (Vector.getElem_set_ne k.isLt j.isLt (Nat.ne_of_gt hj)).trans (hk j)
    have hm' : (s.setKey k true).mode = .waitingForKey x := by rwa [State.setKey_press hup]
    obtain ⟨t, ht, hres, hreg, -, hmode, -, -, hparts⟩ := (keyWaitPolls _ x hm').2 k hlatched hlow
    refine ⟨t, ?_, ?_, hmode, ?_⟩
    · refine transactAll_cons_of_next (transact_setKey k true s) ?_
      rw [← hres]
      exact transactAll_cons_of_next (transact_step_of_step ht) rfl
    · rwa [State.setKey_press hup] at hreg
    · have hpc := hparts .pc (by simp)
      rwa [State.setKey_press hup] at hpc
  | succ n ih =>
    intro hm hk hup
    obtain ⟨t, hrest, hreg, hmode, hpc⟩ := ih (s.returning (.ok .idle)) hm hk hup
    exact ⟨t, transactAll_cons_of_next (transact_step_of_step (step_of_waiting_idle hm hk)) hrest, hreg, hmode, hpc⟩

/-! ### Load -/

theorem transact_load_of_le {rom : List Byte} (h : rom.length ≤ 3584) :
    transact fmt (.load rom) s = .next (s.loadRom rom, .loaded) := if_pos h

theorem transact_load_of_gt {rom : List Byte} (h : 3584 < rom.length) :
    transact fmt (.load rom) s = .next (s, .romTooLarge) := if_neg (Nat.not_le.mpr h)

theorem keepsAllBut_loadRom (s : State) (rom : List Byte) : KeepsAllBut [.memory, .pc, .mode] s (s.loadRom rom) :=
  (((keepsAllBut_storeBytes s _ _).trans (keepsAllBut_setPc _ _)).trans (keepsAllBut_setMode _ _)).mono (by simp)

theorem modeAfterLoad_of_not_halted {m : Mode} (h : ∀ f, m ≠ .halted f) : modeAfterLoad m = .running := by
  cases m with
  | halted f => exact absurd rfl (h f)
  | running | waitingForKey => rfl

/-- Settles O56: the ROM's bytes are stored from 0x200 on and fit below 4096, so no other address below 4096 is theirs. -/
theorem loadCopiesTheRom : Obligations.LoadCopiesTheRom := by
  refine fun fmt s rom => ⟨fun hle => ?_, transact_load_of_gt⟩
  refine ⟨_, transact_load_of_le hle, fun k hk => ?_, fun a ha hout => ?_, rfl, ?_,
    fun hrun => modeAfterLoad_of_not_halted hrun, by simp [State.loadRom], keepsAllBut_loadRom s rom⟩
  · rw [List.getElem?_eq_getElem hk]
    exact congrArg some (s.readByte_storeBytes romBase k rom (by rw [memSize]; omega) hk).symm
  · refine s.readByte_storeBytes_of_ne romBase a rom fun k hk => ?_
    rw [memSize, romBase]
    omega
  · rintro ⟨f, hf⟩
    exact (congrArg modeAfterLoad hf).trans hf.symm

/-- Settles O57: the load after construction, its first two bytes read by the fetch. -/
theorem bootFetchesTheFirstRomWord : Obligations.BootFetchesTheFirstRomWord := by
  intro fmt s cfg hi lo rom hrom
  obtain ⟨t, ht, hbytes, -, hpc, -, hrun, -, hcfg, -⟩ :=
    (loadCopiesTheRom fmt (s.constructAgain cfg) (hi :: lo :: rom)).1 (Nat.add_le_add_right hrom 2)
  have hhigh : hi = t.readByte 0x200 := Option.some.inj (hbytes 0 (by simp))
  have hlow : lo = t.readByte 0x201 := Option.some.inj (hbytes 1 (by simp))
  refine ⟨t, transactAll_cons_of_next rfl (transactAll_cons_of_next ht rfl), hcfg, hrun fun f => Mode.noConfusion, hpc, ?_⟩
  rw [State.fetchWord, hpc, hhigh, hlow]
  rfl

/-! ### Snapshot and restore -/

/-- Settles O58: the format reads its own blob, whose memory is canonical for the common configuration. -/
theorem restoreOfSnapshotGivesTheStateBack : Obligations.RestoreOfSnapshotGivesTheStateBack := by
  intro fmt s u hs hcfg
  refine ⟨rfl, (restoreTransaction_write ?_).trans ?_⟩
  · rwa [hcfg]
  · rw [State.restore, hcfg]
    rfl

end Sys2Proof.Machine
end
